-- ==== Sys2Proof/Word.lean ====
section
/-! DEFINITION. The word types of the block (spec/10_state.md rules R21 to R28, spec/30_encoding.md rule R73). -/

namespace Sys2Proof

/-- A byte of memory, a general register, a timer or an 8-bit immediate `NN` (R21, R28, R73). -/
abbrev Byte := BitVec 8

/-- A 16-bit quantity: an instruction word, `I`, `pc` or a stack entry (R23, R26, R27, R73). -/
abbrev Word := BitVec 16

/-- A 12-bit address immediate `NNN` (R73, R74). -/
abbrev Addr12 := BitVec 12

/-- A 4-bit field of an instruction word: a register number `X` or `Y`, or a row count `N`
(R73); a register number is in range by construction (R21). -/
abbrev Nibble := BitVec 4

end Sys2Proof
end

