-- ==== Sys2Proof/Config.lean ====
section
/-! DEFINITION. What the source leaves open and the model may not evaluate: the random byte
(spec/00_scope.md rule R7 row `rnd`, spec/92_eei_decisions.md D4). The parameters the spec gives a
value (`FONT`, `FX29_BASE` and the fixed sizes) stand in Sys2Proof/Machine/Params.lean. -/

namespace Sys2Proof.Config

/-- The random byte `rnd` that the `n`-th executed `CXNN` consumes (R7, R131, R188): a free value under
no law, so it has no body and nothing can be proved about it. Which draw it is, is the model's own
counter `State.draws` (DESIGN CHOICE, notes/assumptions/1.md; safe). -/
opaque randomByte : Nat → Byte

end Sys2Proof.Config
end

