-- ==== Sys2Proof/Syntax.lean ====
section
/-! DEFINITION. The 35 instructions of spec/30_encoding.md table R76, one constructor a row, in the
table's order. Operands are the decoded fields of rule R73. -/

namespace Sys2Proof

/-- One constructor for each row of spec/opcode_table.json; a constructor's name is its row's mnemonic
(rule R84) in lower case. -/
inductive Instr where
  /-- `00E0 CLS`: clear the framebuffer (R150). -/
  | cls
  /-- `00EE RET`: return from a subroutine (R100). -/
  | ret
  /-- `0NNN SYS nnn`: jump (R101). -/
  | sys (nnn : Addr12)
  /-- `1NNN JP nnn`: jump (R102). -/
  | jp (nnn : Addr12)
  /-- `2NNN CALL nnn`: call a subroutine (R103). -/
  | call (nnn : Addr12)
  /-- `3XNN SEI Vx, nn`: skip if equal to the immediate (R110). -/
  | sei (x : Nibble) (nn : Byte)
  /-- `4XNN SNEI Vx, nn`: skip if different from the immediate (R111). -/
  | snei (x : Nibble) (nn : Byte)
  /-- `5XY0 SE Vx, Vy`: skip if equal (R112). -/
  | se (x y : Nibble)
  /-- `6XNN LDI Vx, nn`: load an immediate (R120). -/
  | ldi (x : Nibble) (nn : Byte)
  /-- `7XNN ADDI Vx, nn`: add an immediate (R121). -/
  | addi (x : Nibble) (nn : Byte)
  /-- `8XY0 MOV Vx, Vy` (R122). -/
  | mov (x y : Nibble)
  /-- `8XY1 OR Vx, Vy` (R123). -/
  | or (x y : Nibble)
  /-- `8XY2 AND Vx, Vy` (R124). -/
  | and (x y : Nibble)
  /-- `8XY3 XOR Vx, Vy` (R125). -/
  | xor (x y : Nibble)
  /-- `8XY4 ADD Vx, Vy` (R126). -/
  | add (x y : Nibble)
  /-- `8XY5 SUB Vx, Vy` (R127). -/
  | sub (x y : Nibble)
  /-- `8XY6 SHR Vx, Vy`; `y` is encoded and ignored (R128, R82). -/
  | shr (x y : Nibble)
  /-- `8XY7 SUBN Vx, Vy` (R129). -/
  | subn (x y : Nibble)
  /-- `8XYE SHL Vx, Vy`; `y` is encoded and ignored (R130, R82). -/
  | shl (x y : Nibble)
  /-- `9XY0 SNE Vx, Vy`: skip if different (R113). -/
  | sne (x y : Nibble)
  /-- `ANNN LDA nnn`: load the index register (R140). -/
  | lda (nnn : Addr12)
  /-- `BNNN JPV0 nnn`: jump to `nnn + v[0]` (R104). -/
  | jpv0 (nnn : Addr12)
  /-- `CXNN RND Vx, nn`: masked random byte (R131). -/
  | rnd (x : Nibble) (nn : Byte)
  /-- `DXYN DRW Vx, Vy, n`: draw a sprite (R151). -/
  | drw (x y n : Nibble)
  /-- `EX9E SKP Vx`: skip if the key is pressed (R160). -/
  | skp (x : Nibble)
  /-- `EXA1 SKNP Vx`: skip if the key is not pressed (R161). -/
  | sknp (x : Nibble)
  /-- `FX07 GDT Vx`: read the delay timer (R163). -/
  | gdt (x : Nibble)
  /-- `FX0A KEY Vx`: wait for a key (R162). -/
  | key (x : Nibble)
  /-- `FX15 SDT Vx`: set the delay timer (R164). -/
  | sdt (x : Nibble)
  /-- `FX18 SST Vx`: set the sound timer (R165). -/
  | sst (x : Nibble)
  /-- `FX1E ADDA Vx`: add to the index register (R141). -/
  | adda (x : Nibble)
  /-- `FX29 FNT Vx`: `I <- v[X] * 5 + FX29_BASE` (R142). -/
  | fnt (x : Nibble)
  /-- `FX33 BCD Vx`: store three decimal digits (R143). -/
  | bcd (x : Nibble)
  /-- `FX55 STM Vx`: store `v[0]` to `v[X]` (R144). -/
  | stm (x : Nibble)
  /-- `FX65 LDM Vx`: load `v[0]` to `v[X]` (R145). -/
  | ldm (x : Nibble)
  deriving DecidableEq, Repr

end Sys2Proof
end

