-- ==== Sys2Proof/WellFormed.lean ====
section
/-! DEFINITION. Which terms of `Instr` are instruction forms (spec/30_encoding.md rules R75 and R84).
Every operand is bounded by its type; the one check left is that `SYS` never names the two words that
are `CLS` and `RET`. -/

namespace Sys2Proof

/-- "`SYS 0x0E0` and `SYS 0x0EE` are not writable (they are `CLS` and `RET`)" (R84); every other term is
an instruction form of table R76. -/
def Instr.wellFormed : Instr → Bool
  | .sys nnn => nnn != 0x0E0#12 && nnn != 0x0EE#12
  | .cls => true
  | .ret => true
  | .jp _ => true
  | .call _ => true
  | .sei _ _ => true
  | .snei _ _ => true
  | .se _ _ => true
  | .ldi _ _ => true
  | .addi _ _ => true
  | .mov _ _ => true
  | .or _ _ => true
  | .and _ _ => true
  | .xor _ _ => true
  | .add _ _ => true
  | .sub _ _ => true
  | .shr _ _ => true
  | .subn _ _ => true
  | .shl _ _ => true
  | .sne _ _ => true
  | .lda _ => true
  | .jpv0 _ => true
  | .rnd _ _ => true
  | .drw _ _ _ => true
  | .skp _ => true
  | .sknp _ => true
  | .gdt _ => true
  | .key _ => true
  | .sdt _ => true
  | .sst _ => true
  | .adda _ => true
  | .fnt _ => true
  | .bcd _ => true
  | .stm _ => true
  | .ldm _ => true

end Sys2Proof
end

