-- ==== Sys2Proof/Decode.lean ====
section
/-! DEFINITION. Fields, decoder and encoder (spec/30_encoding.md rules R72 to R83). The decoder is total
on every word and every list of bytes and names why it refuses; the encoder is written from the
bit layouts of the same rules. -/

namespace Sys2Proof

/-- Big-endian pairing of two bytes: the byte at the lower address holds bits 15 to 8 (R53, R72). -/
def wordOfBytes (first second : Byte) : Word := first ++ second

/-- The byte of a word that lies at the lower address (R53). -/
def firstByte (op : Word) : Byte := op.extractLsb' 8 8

/-- The byte of a word that lies at the higher address (R53). -/
def secondByte (op : Word) : Byte := op.extractLsb' 0 8

/-- Operation class, bits 15 to 12 (R73). -/
def fieldCls (op : Word) : Nibble := op.extractLsb' 12 4

/-- `X`, bits 11 to 8 (R73). -/
def fieldX (op : Word) : Nibble := op.extractLsb' 8 4

/-- `Y`, bits 7 to 4 (R73). -/
def fieldY (op : Word) : Nibble := op.extractLsb' 4 4

/-- `N`, bits 3 to 0 (R73). -/
def fieldN (op : Word) : Nibble := op.extractLsb' 0 4

/-- `NN`, bits 7 to 0 (R73). -/
def fieldNN (op : Word) : Byte := op.extractLsb' 0 8

/-- `NNN`, bits 11 to 0 (R73). -/
def fieldNNN (op : Word) : Addr12 := op.extractLsb' 0 12

/-- Class 8 selects on `N`: 0 assign, 1 OR, 2 AND, 3 XOR, 4 ADD, 5 SUB, 6 SHR, 7 SUBN, E SHL; the other
selectors have no operation (R78, decision D7). -/
def decodeClass8 (x y n : Nibble) : Option Instr :=
  match n with
  | 0x0#4 => some (.mov x y)
  | 0x1#4 => some (.or x y)
  | 0x2#4 => some (.and x y)
  | 0x3#4 => some (.xor x y)
  | 0x4#4 => some (.add x y)
  | 0x5#4 => some (.sub x y)
  | 0x6#4 => some (.shr x y)
  | 0x7#4 => some (.subn x y)
  | 0xE#4 => some (.shl x y)
  | _ => none

/-- Class E selects on `NN` (R75, R76). -/
def decodeClassE (x : Nibble) (nn : Byte) : Option Instr :=
  match nn with
  | 0x9E#8 => some (.skp x)
  | 0xA1#8 => some (.sknp x)
  | _ => none

/-- Class F selects on `NN` (R75, R76). -/
def decodeClassF (x : Nibble) (nn : Byte) : Option Instr :=
  match nn with
  | 0x07#8 => some (.gdt x)
  | 0x0A#8 => some (.key x)
  | 0x15#8 => some (.sdt x)
  | 0x18#8 => some (.sst x)
  | 0x1E#8 => some (.adda x)
  | 0x29#8 => some (.fnt x)
  | 0x33#8 => some (.bcd x)
  | 0x55#8 => some (.stm x)
  | 0x65#8 => some (.ldm x)
  | _ => none

/-- Class 0 selects on the whole word: the two exact words `00E0` and `00EE` take precedence over
`0NNN` (R75). -/
def decodeClass0 (op : Word) : Instr :=
  if op = 0x00E0#16 then .cls
  else if op = 0x00EE#16 then .ret
  else .sys (fieldNNN op)

/-- `Decode(op)` (R75, table R76): the class first, then the class's sub-selector; `none` is the
unrecognized space of R80. The last arm is not reached: the sixteen classes stand above it. -/
def decodeWord (op : Word) : Option Instr :=
  match fieldCls op with
  | 0x0#4 => some (decodeClass0 op)
  | 0x1#4 => some (.jp (fieldNNN op))
  | 0x2#4 => some (.call (fieldNNN op))
  | 0x3#4 => some (.sei (fieldX op) (fieldNN op))
  | 0x4#4 => some (.snei (fieldX op) (fieldNN op))
  | 0x5#4 => if fieldN op = 0x0#4 then some (.se (fieldX op) (fieldY op)) else none
  | 0x6#4 => some (.ldi (fieldX op) (fieldNN op))
  | 0x7#4 => some (.addi (fieldX op) (fieldNN op))
  | 0x8#4 => decodeClass8 (fieldX op) (fieldY op) (fieldN op)
  | 0x9#4 => if fieldN op = 0x0#4 then some (.sne (fieldX op) (fieldY op)) else none
  | 0xA#4 => some (.lda (fieldNNN op))
  | 0xB#4 => some (.jpv0 (fieldNNN op))
  | 0xC#4 => some (.rnd (fieldX op) (fieldNN op))
  | 0xD#4 => some (.drw (fieldX op) (fieldY op) (fieldN op))
  | 0xE#4 => decodeClassE (fieldX op) (fieldNN op)
  | 0xF#4 => decodeClassF (fieldX op) (fieldNN op)
  | _ => none

/-- Why a list of bytes gives no instruction. -/
inductive DecodeError where
  /-- Fewer than the two bytes of an instruction (R73). -/
  | truncated
  /-- The word matches no row of table R76 (R80). -/
  | unrecognized (op : Word)
  deriving DecidableEq, Repr

/-- Decode the instruction at the head of a list of bytes and give back the bytes after it (R72, R75). -/
def decode : List Byte → Except DecodeError (Instr × List Byte)
  | first :: second :: rest =>
    match decodeWord (wordOfBytes first second) with
    | some i => .ok (i, rest)
    | none => .error (.unrecognized (wordOfBytes first second))
  | _ => .error .truncated

/-- The word of layouts `XY`, `XYN` and `NONE`: four nibbles, `cls` in bits 15 to 12 (R73, R77). -/
def wordXYN (c x y n : Nibble) : Word := c ++ x ++ y ++ n

/-- The word of layouts `XNN` and `X` (R73, R77). -/
def wordXNN (c x : Nibble) (nn : Byte) : Word := c ++ x ++ nn

/-- The word of layout `NNN` (R73, R77). -/
def wordNNN (c : Nibble) (nnn : Addr12) : Word := c ++ nnn

/-- The instruction word of each row of table R76. -/
def encode : Instr → Word
  | .cls => wordXYN 0x0 0x0 0xE 0x0
  | .ret => wordXYN 0x0 0x0 0xE 0xE
  | .sys nnn => wordNNN 0x0 nnn
  | .jp nnn => wordNNN 0x1 nnn
  | .call nnn => wordNNN 0x2 nnn
  | .sei x nn => wordXNN 0x3 x nn
  | .snei x nn => wordXNN 0x4 x nn
  | .se x y => wordXYN 0x5 x y 0x0
  | .ldi x nn => wordXNN 0x6 x nn
  | .addi x nn => wordXNN 0x7 x nn
  | .mov x y => wordXYN 0x8 x y 0x0
  | .or x y => wordXYN 0x8 x y 0x1
  | .and x y => wordXYN 0x8 x y 0x2
  | .xor x y => wordXYN 0x8 x y 0x3
  | .add x y => wordXYN 0x8 x y 0x4
  | .sub x y => wordXYN 0x8 x y 0x5
  | .shr x y => wordXYN 0x8 x y 0x6
  | .subn x y => wordXYN 0x8 x y 0x7
  | .shl x y => wordXYN 0x8 x y 0xE
  | .sne x y => wordXYN 0x9 x y 0x0
  | .lda nnn => wordNNN 0xA nnn
  | .jpv0 nnn => wordNNN 0xB nnn
  | .rnd x nn => wordXNN 0xC x nn
  | .drw x y n => wordXYN 0xD x y n
  | .skp x => wordXNN 0xE x 0x9E
  | .sknp x => wordXNN 0xE x 0xA1
  | .gdt x => wordXNN 0xF x 0x07
  | .key x => wordXNN 0xF x 0x0A
  | .sdt x => wordXNN 0xF x 0x15
  | .sst x => wordXNN 0xF x 0x18
  | .adda x => wordXNN 0xF x 0x1E
  | .fnt x => wordXNN 0xF x 0x29
  | .bcd x => wordXNN 0xF x 0x33
  | .stm x => wordXNN 0xF x 0x55
  | .ldm x => wordXNN 0xF x 0x65

/-- The two bytes of an instruction in memory order (R53). -/
def encodeBytes (i : Instr) : List Byte := [firstByte (encode i), secondByte (encode i)]

/-- The bytes, in memory order, of an instruction whose bits are `w` as spec/opcode_table.json numbers
them: one 16-bit word, the bits above `nbits` zero. -/
def tableBytes (nbits w : Nat) : List Byte :=
  let op := BitVec.ofNat 16 (w % 2 ^ nbits)
  [firstByte op, secondByte op]

/-- The instruction the decoder reads from a word of spec/opcode_table.json; every row of the table has
16 bits. -/
def decodeTableWord (nbits w : Nat) : Option Instr :=
  match decode (tableBytes nbits w) with
  | .ok (i, _) => some i
  | .error _ => none

end Sys2Proof
end

