-- ==== Sys2Proof/Machine/Params.lean ====
section
/-! DEFINITION. The parameters the spec gives a value: the fixed sizes and addresses of
spec/00_scope.md rule R6, and `FONT` and `FX29_BASE` of rule R7. They stand here, not in Config, so that
a later repair can mend them. -/

namespace Sys2Proof.Machine

/-- `a` is the address of a byte of `memory`: 0x000 to 0xFFF (R50, R56). -/
abbrev InMemory (a : Nat) : Prop := a ≤ 0xFFF

/-- `FONT_BASE` (R6). -/
abbrev fontBase : Nat := 0x050

/-- `ROM_BASE` (R6). -/
abbrev romBase : Nat := 0x200

/-- `ROM_MAX`, the largest ROM in bytes, inclusive (R6, R201). -/
abbrev romMax : Nat := 3584

/-- `FX29_BASE`, the constant `FX29` adds: 0x000, the literal reading of the source's formula (R7, R142,
decision D16; log entry 2, unsafe). -/
def fx29Base : Nat := 0x000

/-- Glyph 0, the one glyph whose bytes the source gives (R33). -/
def glyph0 : List Byte := [0xF0, 0x90, 0x90, 0x90, 0xF0]

/-- Glyphs 1 to 5 of the table of R33, which the spec supplies from general knowledge (PRESUMED, log
entry 3; unsafe). -/
def glyphs1to5 : List Byte :=
  [0x20, 0x60, 0x20, 0x20, 0x70] ++
  [0xF0, 0x10, 0xF0, 0x80, 0xF0] ++
  [0xF0, 0x10, 0xF0, 0x10, 0xF0] ++
  [0x90, 0x90, 0xF0, 0x10, 0x10] ++
  [0xF0, 0x80, 0xF0, 0x10, 0xF0]

/-- Glyphs 6 to A of the table of R33 (PRESUMED, log entry 3; unsafe). -/
def glyphs6toA : List Byte :=
  [0xF0, 0x80, 0xF0, 0x90, 0xF0] ++
  [0xF0, 0x10, 0x20, 0x40, 0x40] ++
  [0xF0, 0x90, 0xF0, 0x90, 0xF0] ++
  [0xF0, 0x90, 0xF0, 0x10, 0xF0] ++
  [0xF0, 0x90, 0xF0, 0x90, 0x90]

/-- Glyphs B to F of the table of R33 (PRESUMED, log entry 3; unsafe). -/
def glyphsBtoF : List Byte :=
  [0xE0, 0x90, 0xE0, 0x90, 0xE0] ++
  [0xF0, 0x80, 0x80, 0x80, 0xF0] ++
  [0xE0, 0x90, 0x90, 0x90, 0xE0] ++
  [0xF0, 0x80, 0xF0, 0x80, 0xF0] ++
  [0xF0, 0x80, 0xF0, 0x80, 0x80]

/-- `FONT`, the 80 bytes that RESET installs at `FONT_BASE` (R33, R36). -/
def font : List Byte := glyph0 ++ glyphs1to5 ++ glyphs6toA ++ glyphsBtoF

/-- What a byte of memory holds after `RESET` with an empty ROM (R36): the font at 0x050 to 0x09F, zero
elsewhere. It is what an address not listed in `State.mem` reads as. -/
def resetByte (a : Nat) : Byte :=
  if fontBase ≤ a ∧ a < fontBase + 80 then font.getD (a - fontBase) 0 else 0

end Sys2Proof.Machine
end

