-- ==== Sys2Proof/Machine/State.lean ====
section
/-! DEFINITION. The state of the block as plain data (spec/10_state.md rules R20 to R36), the reasons a
transition can stop, and the state after RESET. -/

namespace Sys2Proof.Machine

/-- The 4096-byte memory (R32) as a list of (address, byte) pairs: strictly rising addresses, no entry
equal to what an unlisted address reads as (`Memory.wf` in Machine/Memory.lean). -/
abbrev Memory := List Host.Cell

/-- The framebuffer, 32 rows of 64 pixels; `true` is on (R29). -/
abbrev Framebuffer := Vector (Vector Bool 64) 32

/-- The ten elements of R20 and, last, the model's own draw counter. -/
structure State where
  /-- `memory` (R32). -/
  mem : Memory
  /-- General registers `v[0]` to `v[15]`; `v[15]` is `VF` (R21, R22). -/
  v : Vector Byte 16
  /-- Index register (R26). -/
  I : Word
  /-- Program counter (R23). -/
  pc : Word
  /-- Call stack entries `stack[0]` to `stack[15]` (R27). -/
  stack : Vector Word 16
  /-- Stack pointer, 0 to 16: the number of entries in use (R27). -/
  sp : Fin 17
  /-- Delay timer (R28). -/
  DT : Byte
  /-- Sound timer (R28). -/
  ST : Byte
  /-- Framebuffer (R29). -/
  fb : Framebuffer
  /-- Sticky redraw flag (R30). -/
  redraw : Bool
  /-- Keypad image, `true` is pressed (R31). -/
  key : Vector Bool 16
  /-- The MODEL's own field, not the spec's: how many random bytes have been drawn, the argument of
  `Config.randomByte` (R131, log entry 1). -/
  draws : Nat
  deriving DecidableEq, Repr

/-- The reasons a step can stop with a fault: none. "No exceptions cross the interpreter boundary; every
condition above is expressed as either a state mutation plus diagnostic" (R13, R176), and every case the
source leaves open has a state change in a rule of the spec (log entry 4). -/
inductive Fault where
  deriving DecidableEq, Repr

/-- The reasons a transition is refused. `step` and `exec` answer none of them. -/
inductive Refusal where
  /-- An instruction whose meaning is not written; the name is its mnemonic. No arm of `exec` raises it
  (safe). -/
  | notModelled (mnemonic : String)
  /-- `RESET(rom)` with more than 3584 bytes, raised by the RESET event: no state is created (R201; safe). -/
  | romTooLarge
  /-- An event before the first successful RESET, or after a failed one, raised by the events STEP, TICK,
  KEYS and REDRAW_ACK: there is no state to act on (R202; safe). -/
  | noState
  deriving DecidableEq, Repr

/-- The state after `RESET` with an empty ROM (R36, R200, V-T11). Memory lists nothing: an unlisted address
reads as `resetByte`, the font and zeros. `draws` is the model's own field (DESIGN CHOICE, log entry 1). -/
def State.reset : State where
  mem := []
  v := Vector.replicate 16 0
  I := 0
  pc := 0x200
  stack := Vector.replicate 16 0
  sp := 0
  DT := 0
  ST := 0
  fb := Vector.replicate 32 (Vector.replicate 64 false)
  redraw := false
  key := Vector.replicate 16 false
  draws := 0

end Sys2Proof.Machine
end

