-- ==== Sys2Proof/Machine/Memory.lean ====
section
/-! DEFINITION. Reading and writing one byte of memory in its canonical form (spec/20_memory.md rules R50
to R58). Every wider access is built from these two. -/

namespace Sys2Proof.Machine

/-- `MemRead(a, 1)` (R12): the listed byte, else what RESET left there. -/
def Memory.read : Memory → Nat → Byte
  | [], a => resetByte a
  | (k, b) :: rest, a => if k = a then b else Memory.read rest a

/-- Drop every entry of address `a`. -/
def Memory.erase : Memory → Nat → Memory
  | [], _ => []
  | (k, b) :: rest, a => if k = a then Memory.erase rest a else (k, b) :: Memory.erase rest a

/-- Put an entry for address `a` at its place in the rising order. -/
def Memory.insert : Memory → Nat → Byte → Memory
  | [], a, b => [(a, b)]
  | (k, c) :: rest, a, b =>
    if a < k then (a, b) :: (k, c) :: rest
    else if k = a then (a, b) :: rest
    else (k, c) :: Memory.insert rest a b

/-- The checked byte store of R56 and R58: `MemWrite(a, 1, b)` when `a` is in memory, nothing otherwise.
It keeps the canonical form: writing back what an unlisted address reads as removes the entry. -/
def Memory.write (m : Memory) (a : Nat) (b : Byte) : Memory :=
  if InMemory a then
    if b = resetByte a then m.erase a else m.insert a b
  else m

/-- The checked byte load of R56 and R58: `none` when `a` is out of range and the access is skipped. -/
def Memory.read? (m : Memory) (a : Nat) : Option Byte :=
  if InMemory a then some (m.read a) else none

/-- The canonical form: strictly rising addresses, all in memory, and no entry equal to what an unlisted
address reads as. -/
abbrev Memory.wf (m : Memory) : Prop :=
  m.Pairwise (fun p q => p.1 < q.1) ∧ ∀ p ∈ m, InMemory p.1 ∧ p.2 ≠ resetByte p.1

/-- Store bytes one by one at rising addresses, each checked by itself (R54, R58). -/
def Memory.writeBytes (m : Memory) (a : Nat) : List Byte → Memory
  | [] => m
  | b :: bs => Memory.writeBytes (m.write a b) (a + 1) bs

end Sys2Proof.Machine
end

