-- ==== Sys2Proof/Machine/Ops.lean ====
section
/-! DEFINITION. The named operations the meanings share: registers, sequencing of `pc`, the call stack,
memory transfers, the keypad scan, fetch, and what a STEP does when it executes nothing.

Taking an exception: the hardware has none. "There is no trap entry: no state is saved, no mode changes"
(spec/60_exceptions.md R176) and no trap return (R177); every condition is a state change written out in an
instruction's rule plus a diagnostic code (Machine/Diagnostics.lean). -/

namespace Sys2Proof.Machine

/-- What `exec` and `step` answer. -/
abbrev Result := Host.Outcome State Fault Refusal

/-! ### General registers (R21) -/

/-- `v[x]`. -/
def State.reg (s : State) (x : Nibble) : Byte := s.v[x.toNat]'x.isLt

/-- `v[x] <- b`; no register is hardwired. -/
def State.setReg (s : State) (x : Nibble) (b : Byte) : State := { s with v := s.v.set x.toNat b x.isLt }

/-! ### Sequencing of `pc` (R24) -/

/-- The default post-execution action, `pc <- pc0 + 2`. -/
def State.advance (s : State) : State := { s with pc := s.pc + 2#16 }

/-- "Skip next instruction": `pc <- pc0 + 4` (spec/41_skip.md). -/
def State.skip (s : State) : State := { s with pc := s.pc + 4#16 }

/-- `pc <- pc0 + 4` when the condition holds, else `pc <- pc0 + 2` (R110 to R113, R160, R161). -/
def State.skipIf (s : State) (c : Bool) : State := if c then s.skip else s.advance

/-- `pc <- e`. -/
def State.jump (s : State) (e : Word) : State := { s with pc := e }

/-! ### Call stack (R27) -/

/-- `sp = 16`: no entry is free (R103). -/
def State.stackFull (s : State) : Bool := decide (s.sp.val = 16)

/-- `sp = 0`: no entry is in use (R100). -/
def State.stackEmpty (s : State) : Bool := decide (s.sp.val = 0)

/-- `stack[sp] <- e ; sp <- sp + 1`; a full stack is left alone (R103). -/
def State.push (s : State) (e : Word) : State :=
  if h : s.sp.val < 16 then
    { s with stack := s.stack.set s.sp.val e h, sp := ⟨s.sp.val + 1, by omega⟩ }
  else s

/-- The entry a return uses, `stack[sp - 1]`; zero on an empty stack, where no rule reads it (R100). -/
def State.topEntry (s : State) : Word :=
  if h : 0 < s.sp.val then s.stack[s.sp.val - 1]'(by omega) else 0

/-- `sp <- sp - 1`; the entry left behind keeps its value, and an empty stack is left alone (R27, R100). -/
def State.pop (s : State) : State := { s with sp := ⟨s.sp.val - 1, by omega⟩ }

/-! ### Memory transfers through `I` (R57, R58, R139) -/

/-- The effective address of byte `k` of a transfer, `I + k` as a mathematical integer: no reduction
modulo 65536 and no masking (R57). -/
def State.ea (s : State) (k : Nat) : Nat := s.I.toNat + k

/-- Some byte of an `n`-byte transfer at `I` lies above 0xFFF and is skipped (R58). -/
def State.transferOutOfBounds (s : State) (n : Nat) : Bool :=
  (List.range n).any fun k => ! decide (InMemory (s.ea k))

/-- Store bytes at `I`, `I + 1`, ...; a byte above 0xFFF is skipped (R58, R139). -/
def State.storeBytes (s : State) (bs : List Byte) : State :=
  { s with mem := s.mem.writeBytes s.I.toNat bs }

/-- Load `v[0]` to `v[n-1]` from `I`, `I + 1`, ... in rising order; a register whose address lies above
0xFFF keeps its value (R58, R145). Registers beyond `v[15]` do not exist. -/
def loadRegs (m : Memory) (base : Nat) : Nat → Vector Byte 16 → Vector Byte 16
  | 0, v => v
  | n + 1, v =>
    match m.read? (base + n) with
    | some b => (loadRegs m base n v).setIfInBounds n b
    | none => loadRegs m base n v

/-- `I <- (I + n) mod 65536` (R26, R144, R145). -/
def State.addIndex (s : State) (n : Nat) : State := { s with I := BitVec.ofNat 16 (s.I.toNat + n) }

/-! ### Keypad image (R31) -/

/-- `key[k] = 1` for a key number below 16, `none` for a key that does not exist (R160, R161). -/
def State.keyPressed? (s : State) (k : Nat) : Option Bool := s.key[k]?

/-- The least `k` with `key[k] = 1` (R162). -/
def State.lowestKey? (s : State) : Option Nat := s.key.toList.findIdx? id

/-! ### Random byte (R131, R188) -/

/-- The `rnd` input of this STEP: a free value (log entry 1). -/
def State.rndInput (s : State) : Byte := Config.randomByte s.draws

/-- The next `CXNN` draws afresh. -/
def State.countDraw (s : State) : State := { s with draws := s.draws + 1 }

/-! ### Fetch (R71, R72) -/

/-- The 16-bit big-endian word at `pc`, or `none` when `pc > 0xFFE` and nothing is read (R71, R72). No
alignment check is made (R55). -/
def State.fetch? (s : State) : Option Word :=
  if s.pc.toNat ≤ 0xFFE then
    some (wordOfBytes (s.mem.read s.pc.toNat) (s.mem.read (s.pc.toNat + 1)))
  else none

/-- A STEP with `pc > 0xFFE` reads nothing and writes nothing (R59, R71). -/
def fetchOutOfBounds (s : State) : Result := .next s

/-- A STEP on an unrecognized word changes no state at all: `pc` is not advanced (R80). -/
def unknownOpcode (s : State) : Result := .next s

end Sys2Proof.Machine
end

