-- ==== Sys2Proof/Machine/Flags.lean ====
section
/-! DEFINITION. The flag computations of spec/42_alu.md rules R118 and R119. `VF` is `v[15]`, the only flag
the hardware has (R22). -/

namespace Sys2Proof.Machine

/-- `VF`, general register 15 (R22). -/
abbrev vf : Nibble := 0xF#4

/-- A flag as the byte 0 or 1. -/
def flagByte (c : Bool) : Byte := if c then 1 else 0

/-- Carry out of the 8-bit addition: the true sum exceeds 255 (R118, R126). -/
def carryOut (a b : Byte) : Bool := decide (255 < a.toNat + b.toNat)

/-- NOT borrow of `a - b`: minuend at least subtrahend, so true also when they are equal (R118, R127,
R129). -/
def noBorrow (a b : Byte) : Bool := decide (b.toNat ≤ a.toNat)

/-- The bit a right shift by one pushes out (R118, R128). -/
def shiftedOutRight (a : Byte) : Bool := a.getLsbD 0

/-- The bit a left shift by one pushes out (R118, R130). -/
def shiftedOutLeft (a : Byte) : Bool := a.getLsbD 7

/-- The write order of the flag-writing instructions: `v[X]` first, `v[15]` last, so that with `X = 15`
the flag is what remains (R119, decision D8). -/
def State.writeResultThenFlag (s : State) (x : Nibble) (result : Byte) (flag : Bool) : State :=
  (s.setReg x result).setReg vf (flagByte flag)

end Sys2Proof.Machine
end

