-- ==== Sys2Proof/Machine/Alu.lean ====
section
/-! DEFINITION. Register loads, arithmetic, logic, shifts and the random byte (spec/42_alu.md). Every meaning
reads its operands first and ends with `pc <- pc0 + 2`. -/

namespace Sys2Proof.Machine

/-- `LDI Vx, nn` (R120). -/
def execLdi (x : Nibble) (nn : Byte) (s : State) : Result := .next (s.setReg x nn).advance

/-- `ADDI Vx, nn` (R121): modulo 256, no flag. -/
def execAddi (x : Nibble) (nn : Byte) (s : State) : Result := .next (s.setReg x (s.reg x + nn)).advance

/-- `MOV Vx, Vy` (R122). -/
def execMov (x y : Nibble) (s : State) : Result := .next (s.setReg x (s.reg y)).advance

/-- `OR Vx, Vy` (R123): `VF` is not written. -/
def execOr (x y : Nibble) (s : State) : Result := .next (s.setReg x (s.reg x ||| s.reg y)).advance

/-- `AND Vx, Vy` (R124): `VF` is not written. -/
def execAnd (x y : Nibble) (s : State) : Result := .next (s.setReg x (s.reg x &&& s.reg y)).advance

/-- `XOR Vx, Vy` (R125): `VF` is not written. -/
def execXor (x y : Nibble) (s : State) : Result := .next (s.setReg x (s.reg x ^^^ s.reg y)).advance

/-- `ADD Vx, Vy` (R126): sum modulo 256, `VF` = carry out. -/
def execAdd (x y : Nibble) (s : State) : Result :=
  let a := s.reg x
  let b := s.reg y
  .next (s.writeResultThenFlag x (a + b) (carryOut a b)).advance

/-- `SUB Vx, Vy` (R127): `v[X] - v[Y]` modulo 256, `VF` = NOT borrow. -/
def execSub (x y : Nibble) (s : State) : Result :=
  let a := s.reg x
  let b := s.reg y
  .next (s.writeResultThenFlag x (a - b) (noBorrow a b)).advance

/-- `SHR Vx, Vy` (R128): logical right shift of `v[X]` by one, `VF` = bit 0; `Y` is ignored (R82). -/
def execShr (x _y : Nibble) (s : State) : Result :=
  let a := s.reg x
  .next (s.writeResultThenFlag x (a >>> 1) (shiftedOutRight a)).advance

/-- `SUBN Vx, Vy` (R129): `v[Y] - v[X]` modulo 256 into `v[X]`, `VF` = NOT borrow. -/
def execSubn (x y : Nibble) (s : State) : Result :=
  let a := s.reg x
  let b := s.reg y
  .next (s.writeResultThenFlag x (b - a) (noBorrow b a)).advance

/-- `SHL Vx, Vy` (R130): left shift of `v[X]` by one modulo 256, `VF` = bit 7; `Y` is ignored (R82). -/
def execShl (x _y : Nibble) (s : State) : Result :=
  let a := s.reg x
  .next (s.writeResultThenFlag x (a <<< 1) (shiftedOutLeft a)).advance

/-- What `RND Vx, nn` does with the input `rnd` (R131): `v[X] <- rnd AND NN`. -/
def rndWith (rnd : Byte) (x : Nibble) (nn : Byte) (s : State) : State := (s.setReg x (rnd &&& nn)).advance

/-- `RND Vx, nn` (R131): the random byte is a free value, drawn afresh at each execution. -/
def execRnd (x : Nibble) (nn : Byte) (s : State) : Result :=
  .next (rndWith s.rndInput x nn s).countDraw

end Sys2Proof.Machine
end

