-- ==== Sys2Proof/Machine/Operands.lean ====
section
/-! DEFINITION. How operands are formed: zero extension of addresses (spec/30_encoding.md rule R74), the
decimal digits of `BCD` (R143), the registers a transfer names (R144), and the coordinates and bits of a
sprite (spec/44_display.md rules R151 to R153). -/

namespace Sys2Proof.Machine

/-- `NNN` as a 16-bit value: zero-extended, not scaled, not relative to `pc` (R74). -/
def zextAddr (nnn : Addr12) : Word := nnn.setWidth 16

/-- `NNN + v[0]`, a plain sum that is not reduced modulo 4096; it always fits 16 bits (R104). -/
def jumpSum (nnn : Addr12) (b : Byte) : Word := BitVec.ofNat 16 (nnn.toNat + b.toNat)

/-- `v[X] * 5 + FX29_BASE` on the whole 8-bit value (R142). -/
def fontAddr (b : Byte) : Word := BitVec.ofNat 16 (b.toNat * 5 + fx29Base)

/-- Hundreds, tens and units of a byte, each 0 to 9 (R143). -/
def bcdDigits (b : Byte) : List Byte :=
  [BitVec.ofNat 8 (b.toNat / 100), BitVec.ofNat 8 (b.toNat / 10 % 10), BitVec.ofNat 8 (b.toNat % 10)]

/-- How many registers `STM Vx` and `LDM Vx` move: `X + 1`, 1 to 16 (R144, R145). -/
def regCount (x : Nibble) : Nat := x.toNat + 1

/-- `v[0]` to `v[X]`, in rising order (R144). -/
def State.lowRegs (s : State) (x : Nibble) : List Byte := s.v.toList.take (regCount x)

/-- The framebuffer row of sprite row `r`: `(v[Y] + r) mod 32` (R153). -/
def spriteRow (y0 : Byte) (r : Nat) : Fin 32 := ⟨(y0.toNat + r) % 32, by omega⟩

/-- The framebuffer column of sprite column `c`: `(v[X] + c) mod 64` (R153). -/
def spriteCol (x0 : Byte) (c : Nat) : Fin 64 := ⟨(x0.toNat + c) % 64, by omega⟩

/-- Column offset `c` of a sprite row is bit `7 - c` of its byte: the most significant bit is leftmost
(R152, decision D10). -/
def spriteBit (b : Byte) (c : Nat) : Bool := b.getLsbD (7 - c)

/-- The cell number of a pixel in the row-major 2048-cell buffer (R29). -/
def cellNumber (py px : Nat) : Nat := py * 64 + px

end Sys2Proof.Machine
end

