-- ==== Sys2Proof/Machine/Display.lean ====
section
/-! DEFINITION. The display instructions CLS and DRW and the sprite renderer (spec/44_display.md). -/

namespace Sys2Proof.Machine

/-- Every pixel off (R150). -/
def blankScreen : Framebuffer := Vector.replicate 32 (Vector.replicate 64 false)

/-- `fb[py][px]`. -/
def Framebuffer.pixel (fb : Framebuffer) (py : Fin 32) (px : Fin 64) : Bool := fb[py][px]

/-- `fb[py][px] <- fb[py][px] XOR 1`. -/
def Framebuffer.toggle (fb : Framebuffer) (py : Fin 32) (px : Fin 64) : Framebuffer :=
  fb.set py (fb[py].set px (! fb[py][px]))

/-- What a draw in progress holds: the framebuffer so far and the cumulative collision (R151). -/
abbrev Drawing := Framebuffer × Bool

/-- A sprite's 1 bit on pixel `(py, px)`: the pixel is toggled, and turning it off is a collision (R151). -/
def plot (d : Drawing) (py : Fin 32) (px : Fin 64) : Drawing :=
  (Framebuffer.toggle d.1 py px, d.2 || Framebuffer.pixel d.1 py px)

/-- One sprite column (R151): a 0 bit changes no pixel and is no collision. -/
def drawPixel (b : Byte) (py : Fin 32) (x0 : Byte) (d : Drawing) (c : Nat) : Drawing :=
  if spriteBit b c then plot d py (spriteCol x0 c) else d

/-- One sprite row, columns 0 to 7 (R151). -/
def drawRow (b : Byte) (py : Fin 32) (x0 : Byte) (d : Drawing) : Drawing :=
  (List.range 8).foldl (drawPixel b py x0) d

/-- One row of the sprite by its number: the byte at `I + r`, or nothing when that address is out of range
(R151). -/
def drawSpriteRow (m : Memory) (base : Nat) (x0 y0 : Byte) (d : Drawing) (r : Nat) : Drawing :=
  match m.read? (base + r) with
  | some b => drawRow b (spriteRow y0 r) x0 d
  | none => d

/-- The whole sprite, rows 0 to `n - 1` (R151). -/
def drawSprite (m : Memory) (base : Nat) (x0 y0 : Byte) (n : Nat) (fb : Framebuffer) : Drawing :=
  (List.range n).foldl (drawSpriteRow m base x0 y0) (fb, false)

/-- The cell numbers an `n`-row sprite visits, for the defensive check of R153. -/
def spriteCells (x0 y0 : Byte) (n : Nat) : List Nat :=
  (List.range n).flatMap fun r =>
    (List.range 8).map fun c => cellNumber (spriteRow y0 r).val (spriteCol x0 c).val

/-- `CLS` (R150). -/
def execCls (s : State) : Result := .next { s with fb := blankScreen, redraw := true }.advance

/-- `DRW Vx, Vy, n` (R151): the coordinates are read before `VF` is written, and `VF` is written once, at
the end (R154, decision D9). -/
def execDrw (x y n : Nibble) (s : State) : Result :=
  let d := drawSprite s.mem s.I.toNat (s.reg x) (s.reg y) n.toNat s.fb
  .next ({ s with fb := d.1, redraw := true }.setReg vf (flagByte d.2)).advance

end Sys2Proof.Machine
end

