-- ==== Sys2Proof/Machine/Flow.lean ====
section
/-! DEFINITION. Control transfer: RET, SYS, JP, CALL, JPV0 (spec/40_flow.md) and the register-compare skips
SEI, SNEI, SE, SNE (spec/41_skip.md). -/

namespace Sys2Proof.Machine

/-- `RET` (R100): on an empty stack only `pc <- pc0 + 2`; else pop, and go to the popped entry plus 2. -/
def execRet (s : State) : Result :=
  if s.stackEmpty then .next s.advance
  else .next (s.pop.jump (s.topEntry + 2#16))

/-- `SYS nnn` (R101): an unconditional jump. -/
def execSys (nnn : Addr12) (s : State) : Result := .next (s.jump (zextAddr nnn))

/-- `JP nnn` (R102). -/
def execJp (nnn : Addr12) (s : State) : Result := .next (s.jump (zextAddr nnn))

/-- `CALL nnn` (R103): on a full stack only `pc <- pc0 + 2`; else push `pc0`, the address of the `CALL`
itself, and jump. -/
def execCall (nnn : Addr12) (s : State) : Result :=
  if s.stackFull then .next s.advance
  else .next ((s.push s.pc).jump (zextAddr nnn))

/-- `JPV0 nnn` (R104): jump to `nnn + v[0]`. -/
def execJpv0 (nnn : Addr12) (s : State) : Result := .next (s.jump (jumpSum nnn (s.reg 0x0)))

/-- `SEI Vx, nn` (R110). -/
def execSei (x : Nibble) (nn : Byte) (s : State) : Result := .next (s.skipIf (s.reg x == nn))

/-- `SNEI Vx, nn` (R111). -/
def execSnei (x : Nibble) (nn : Byte) (s : State) : Result := .next (s.skipIf (s.reg x != nn))

/-- `SE Vx, Vy` (R112). -/
def execSe (x y : Nibble) (s : State) : Result := .next (s.skipIf (s.reg x == s.reg y))

/-- `SNE Vx, Vy` (R113). -/
def execSne (x y : Nibble) (s : State) : Result := .next (s.skipIf (s.reg x != s.reg y))

end Sys2Proof.Machine
end

