-- ==== Sys2Proof/Machine/Index.lean ====
section
/-! DEFINITION. The index register and memory transfers: LDA, ADDA, FNT, BCD, STM, LDM
(spec/43_index_memory.md). -/

namespace Sys2Proof.Machine

/-- `LDA nnn` (R140). -/
def execLda (nnn : Addr12) (s : State) : Result := .next { s with I := zextAddr nnn }.advance

/-- `ADDA Vx` (R141): modulo 65536, no clamp, no mask, no flag. -/
def execAdda (x : Nibble) (s : State) : Result := .next (s.addIndex (s.reg x).toNat).advance

/-- `FNT Vx` (R142). -/
def execFnt (x : Nibble) (s : State) : Result := .next { s with I := fontAddr (s.reg x) }.advance

/-- `BCD Vx` (R143): `I` is unchanged. -/
def execBcd (x : Nibble) (s : State) : Result := .next (s.storeBytes (bcdDigits (s.reg x))).advance

/-- `STM Vx` (R144): `I` advances by `X + 1`. -/
def execStm (x : Nibble) (s : State) : Result :=
  .next ((s.storeBytes (s.lowRegs x)).addIndex (regCount x)).advance

/-- `LDM Vx` (R145): `I` advances by `X + 1`. -/
def execLdm (x : Nibble) (s : State) : Result :=
  .next ({ s with v := loadRegs s.mem s.I.toNat (regCount x) s.v }.addIndex (regCount x)).advance

end Sys2Proof.Machine
end

