-- ==== Sys2Proof/Machine/KeyTimer.lean ====
section
/-! DEFINITION. The keypad and timer instructions SKP, SKNP, KEY, GDT, SDT, SST
(spec/45_keypad_timers.md). -/

namespace Sys2Proof.Machine

/-- `SKP Vx` (R160): skip if key `v[X]` is pressed; a key number of 16 or more reads no key and does not
skip. -/
def execSkp (x : Nibble) (s : State) : Result :=
  match s.keyPressed? (s.reg x).toNat with
  | some p => .next (s.skipIf p)
  | none => .next s.advance

/-- `SKNP Vx` (R161): skip if key `v[X]` is not pressed; a key number of 16 or more does not skip either. -/
def execSknp (x : Nibble) (s : State) : Result :=
  match s.keyPressed? (s.reg x).toNat with
  | some p => .next (s.skipIf (! p))
  | none => .next s.advance

/-- `KEY Vx` (R162): with no key pressed nothing changes, `pc` included, and the next STEP executes the
same instruction again; else `v[X]` receives the lowest pressed key. -/
def execKey (x : Nibble) (s : State) : Result :=
  match s.lowestKey? with
  | some k => .next (s.setReg x (BitVec.ofNat 8 k)).advance
  | none => .next s

/-- `GDT Vx` (R163). -/
def execGdt (x : Nibble) (s : State) : Result := .next (s.setReg x s.DT).advance

/-- `SDT Vx` (R164). -/
def execSdt (x : Nibble) (s : State) : Result := .next { s with DT := s.reg x }.advance

/-- `SST Vx` (R165). -/
def execSst (x : Nibble) (s : State) : Result := .next { s with ST := s.reg x }.advance

end Sys2Proof.Machine
end

