-- ==== Sys2Proof/Machine/Step.lean ====
section
/-! DEFINITION. The STEP transition: fetch bound, fetch, decode, execute (spec/30_encoding.md rule R70). -/

namespace Sys2Proof.Machine

/-- One STEP (R70, R175): first the fetch bound, then decode, then the one decoded instruction. -/
def step (s : State) : Host.Outcome State Fault Refusal :=
  match s.fetch? with
  | none => fetchOutOfBounds s
  | some op =>
    match decodeWord op with
    | none => unknownOpcode s
    | some i => exec i s

/-- `s` with the instruction of spec/opcode_table.json whose bits are `w` stored where `step` fetches next:
its two bytes at `pc` and `pc + 1` (R53). Where `pc` is past the end of memory it is first set to the entry
point 0x200, which the fetch needs. It stands for the load of a program by RESET(rom) (log entry 5). -/
def State.withFetchWord (s : State) (nbits w : Nat) : State :=
  let entry : Word := if s.pc.toNat ≤ 0xFFE then s.pc else 0x200
  { s with pc := entry, mem := s.mem.writeBytes entry.toNat (tableBytes nbits w) }

end Sys2Proof.Machine
end

