-- ==== Sys2Proof/Machine/Diagnostics.lean ====
section
/-! DEFINITION. The two outputs of a STEP, `diag` and `outcome` (spec/60_exceptions.md rules R170, R171,
R175). They are results of the event and no part of the state (spec/10_state.md rule R38), so they are
functions of the state a STEP starts in; each condition is the one its instruction's meaning tests. -/

namespace Sys2Proof.Machine

/-- The diagnostic codes of table R170. -/
inductive Diag where
  /-- Code 1: the fetched word matches no row of the opcode map. -/
  | unknownOpcode
  /-- Code 2: `CALL` with `sp = 16`. -/
  | stackOverflow
  /-- Code 3: `RET` with `sp = 0`. -/
  | stackUnderflow
  /-- Code 4: a data address `I + k` above 0xFFF. -/
  | memOutOfBounds
  /-- Code 5: a framebuffer cell outside 0 to 2047; never raised (R153). -/
  | pixelOutOfBounds
  /-- Code 6: `SKP` or `SKNP` with `v[X] >= 16`. -/
  | keyIndexOutOfRange
  /-- Code 7: `pc > 0xFFE` at the start of the STEP. -/
  | fetchOutOfBounds
  deriving DecidableEq, Repr

/-- The numeric code of table R170. -/
def Diag.code : Diag → Nat
  | .unknownOpcode => 1
  | .stackOverflow => 2
  | .stackUnderflow => 3
  | .memOutOfBounds => 4
  | .pixelOutOfBounds => 5
  | .keyIndexOutOfRange => 6
  | .fetchOutOfBounds => 7

/-- The `outcome` values of R171. -/
inductive StepOutcome where
  /-- One instruction was executed. -/
  | ok
  /-- `KEY` found no key pressed. -/
  | waitKey
  /-- Unrecognized opcode. -/
  | unknown
  /-- `pc > 0xFFE`. -/
  | fetchOob
  deriving DecidableEq, Repr

/-- `raise Diag.<Name>` under a condition: the set with the code, or the empty set (R12). -/
def raiseIf (c : Bool) (d : Diag) : List Diag := if c then [d] else []

/-- The key number in `v[x]` is 16 or more (R160, R161). -/
def State.keyIndexOut (s : State) (x : Nibble) : Bool := (s.keyPressed? (s.reg x).toNat).isNone

/-- Some pixel of the sprite has a cell number outside the 2048-cell buffer (R153's defensive check). -/
def spriteOffBuffer (x0 y0 : Byte) (n : Nat) : Bool :=
  (spriteCells x0 y0 n).any fun cell => ! decide (cell < 2048)

/-- The diagnostics an instruction raises when it is executed in `s` (table R170): a set, held as a list
without repeats. -/
def diagOf (i : Instr) (s : State) : List Diag :=
  match i with
  | .ret => raiseIf s.stackEmpty .stackUnderflow
  | .call _ => raiseIf s.stackFull .stackOverflow
  | .drw x y n =>
    raiseIf (s.transferOutOfBounds n.toNat) .memOutOfBounds ++
      raiseIf (spriteOffBuffer (s.reg x) (s.reg y) n.toNat) .pixelOutOfBounds
  | .bcd _ => raiseIf (s.transferOutOfBounds 3) .memOutOfBounds
  | .stm x => raiseIf (s.transferOutOfBounds (regCount x)) .memOutOfBounds
  | .ldm x => raiseIf (s.transferOutOfBounds (regCount x)) .memOutOfBounds
  | .skp x => raiseIf (s.keyIndexOut x) .keyIndexOutOfRange
  | .sknp x => raiseIf (s.keyIndexOut x) .keyIndexOutOfRange
  | .cls | .sys _ | .jp _ | .sei _ _ | .snei _ _ | .se _ _ | .ldi _ _ | .addi _ _ | .mov _ _ | .or _ _
  | .and _ _ | .xor _ _ | .add _ _ | .sub _ _ | .shr _ _ | .subn _ _ | .shl _ _ | .sne _ _ | .lda _
  | .jpv0 _ | .rnd _ _ | .gdt _ | .key _ | .sdt _ | .sst _ | .adda _ | .fnt _ => []

/-- The outcome of executing an instruction: `OK`, but for `KEY` with no key pressed (R162, R171). -/
def outcomeOf (i : Instr) (s : State) : StepOutcome :=
  match i with
  | .key _ => if s.lowestKey?.isNone then .waitKey else .ok
  | .cls | .ret | .sys _ | .jp _ | .call _ | .sei _ _ | .snei _ _ | .se _ _ | .ldi _ _ | .addi _ _
  | .mov _ _ | .or _ _ | .and _ _ | .xor _ _ | .add _ _ | .sub _ _ | .shr _ _ | .subn _ _ | .shl _ _
  | .sne _ _ | .lda _ | .jpv0 _ | .rnd _ _ | .drw _ _ _ | .skp _ | .sknp _ | .gdt _ | .sdt _ | .sst _
  | .adda _ | .fnt _ | .bcd _ | .stm _ | .ldm _ => .ok

/-- The `outcome` output of the STEP taken from `s` (R70, R171). -/
def stepOutcome (s : State) : StepOutcome :=
  match s.fetch? with
  | none => .fetchOob
  | some op =>
    match decodeWord op with
    | none => .unknown
    | some i => outcomeOf i s

/-- The `diag` output of the STEP taken from `s`, with the order of checks of R175. -/
def stepDiag (s : State) : List Diag :=
  match s.fetch? with
  | none => [.fetchOutOfBounds]
  | some op =>
    match decodeWord op with
    | none => [.unknownOpcode]
    | some i => diagOf i s

end Sys2Proof.Machine
end

