-- ==== Sys2Proof/Machine/Events.lean ====
section
/-! DEFINITION. The five input events of the block and its output ports (spec/00_scope.md rules R8 and R9,
spec/60_exceptions.md rules R180 to R187, spec/70_reset_and_hazards.md rules R200 to R202). `step` is the
STEP event with `rnd` a free value; the host sends every event. -/

namespace Sys2Proof.Machine

/-- `RESET(rom)` (R200, R201): the reset state with the ROM at 0x200, or a refusal when the ROM has more
than 3584 bytes. -/
def resetWith (rom : List Byte) : Result :=
  if rom.length ≤ romMax then
    .next { State.reset with mem := Memory.writeBytes [] romBase rom }
  else .refused .romTooLarge

/-- A timer counts down by one, stopping at zero (R28, R180). -/
def countDown (t : Byte) : Byte := if t = 0 then 0 else t - 1

/-- `TICK` (R180): both timers and nothing else. -/
def tick (s : State) : State := { s with DT := countDown s.DT, ST := countDown s.ST }

/-- `sound_cue` of the `TICK` taken from `s`: `ST = 1` before the decrement (R181). -/
def soundCue (s : State) : Bool := s.ST == 1

/-- `KEYS(k)` (R184): the whole image is overwritten, `key[i] <- k[i]`. -/
def setKeys (k : BitVec 16) (s : State) : State :=
  { s with key := ⟨((List.range 16).map k.getLsbD).toArray, by simp⟩ }

/-- `REDRAW_ACK` (R186). -/
def redrawAck (s : State) : State := { s with redraw := false }

/-- `STEP(rnd)` with its random byte given (R8, R70): only `CXNN` reads it. -/
def stepWith (rnd : Byte) (s : State) : Result :=
  match s.fetch?.bind decodeWord with
  | some (.rnd x nn) => .next (rndWith rnd x nn s)
  | _ => step s

/-- The input events of table R8. -/
inductive Event where
  | reset (rom : List Byte)
  | step (rnd : Byte)
  | tick
  | keys (k : BitVec 16)
  | redrawAck
  deriving DecidableEq, Repr

/-- One event on a live block. -/
def Event.onState (e : Event) (s : State) : Result :=
  match e with
  | .reset rom => resetWith rom
  | .step rnd => stepWith rnd s
  | .tick => .next (Sys2Proof.Machine.tick s)
  | .keys k => .next (setKeys k s)
  | .redrawAck => .next (Sys2Proof.Machine.redrawAck s)

/-- One event on a block that may have no state yet: before the first successful RESET no event but RESET
is defined (R202). -/
def Event.apply (e : Event) : Option State → Result
  | some s => e.onState s
  | none =>
    match e with
    | .reset rom => resetWith rom
    | .step _ => .refused .noState
    | .tick => .refused .noState
    | .keys _ => .refused .noState
    | .redrawAck => .refused .noState

/-- The block after an event: a failed RESET leaves no state, and an event refused for want of a state
changes nothing (R201, R202). -/
def Event.after (e : Event) (b : Option State) : Option State :=
  match e.apply b with
  | .next s => some s
  | .fault _ => b
  | .refused .romTooLarge => none
  | .refused _ => b

/-- The block after a sequence of whole events (R10): every order is admitted (R226). -/
def runEvents (b : Option State) (es : List Event) : Option State :=
  es.foldl (fun b e => e.after b) b

/-- The framebuffer port: `fb[y][x]`, read-only to the host (R187). -/
def pixelPort (s : State) (y : Fin 32) (x : Fin 64) : Bool := Framebuffer.pixel s.fb y x

/-- The redraw port (R9, R186). -/
def redrawPort (s : State) : Bool := s.redraw

/-- The timer ports: `DT` and `ST` (R9). -/
def timerPorts (s : State) : Byte × Byte := (s.DT, s.ST)

end Sys2Proof.Machine
end

