-- ==== Sys2Proof/Safety.lean ====
section
/-! DEFINITION. What a good state is and when a core can never change again, in the terms the statements
use (spec/10_state.md rule R37, spec/60_exceptions.md rules R171 and R193). -/

namespace Sys2Proof

/-- The instructions that "jump, call, return, or skip" and so override the default `pc += 2` (R24). -/
def Instr.setsPc : Instr → Bool
  | .ret | .sys _ | .jp _ | .call _ | .jpv0 _ => true
  | .sei _ _ | .snei _ _ | .se _ _ | .sne _ _ | .skp _ | .sknp _ => true
  | .cls | .ldi _ _ | .addi _ _ | .mov _ _ | .or _ _ | .and _ _ | .xor _ _ | .add _ _ | .sub _ _ => false
  | .shr _ _ | .subn _ _ | .shl _ _ | .lda _ | .rnd _ _ | .drw _ _ _ | .gdt _ | .key _ | .sdt _ => false
  | .sst _ | .adda _ | .fnt _ | .bcd _ | .stm _ | .ldm _ => false

end Sys2Proof

namespace Sys2Proof.Machine

/-- `pc` is in 0 to 0x10FE (R25, R37). -/
abbrev State.PcBounded (s : State) : Prop := s.pc.toNat ≤ 0x10FE

/-- Every stack entry is in 0 to 0xFFE (R25, R37). -/
abbrev State.StackBounded (s : State) : Prop := ∀ k : Fin 16, (s.stack[k]).toNat ≤ 0xFFE

/-- The invariant of R37, with the canonical form of memory, which says that every listed address is in 0
to 0xFFF. The ranges of `sp`, `v`, `DT`, `ST`, `I` and of pixels are those of their types. -/
abbrev State.Inv (s : State) : Prop := s.mem.wf ∧ s.PcBounded ∧ s.StackBounded

/-- Held at a fetch beyond memory (R71). -/
def State.heldFetchOob (s : State) : Bool := stepOutcome s == .fetchOob

/-- Held at an unrecognized word (R80). -/
def State.heldUnknown (s : State) : Bool := stepOutcome s == .unknown

/-- The word at `pc` is a jump to itself: `1NNN` or `0NNN` with `NNN = pc0`, or `BNNN` with
`NNN + v[0] = pc0` (R193). -/
def State.jumpsToSelf (s : State) : Bool :=
  match s.fetch?.bind decodeWord with
  | some (.jp nnn) => zextAddr nnn == s.pc
  | some (.sys nnn) => zextAddr nnn == s.pc
  | some (.jpv0 nnn) => jumpSum nnn (s.reg 0x0) == s.pc
  | _ => false

/-- The states R193 names as those in which STEP can never again change anything. -/
def State.terminal (s : State) : Bool := s.heldFetchOob || s.heldUnknown || s.jumpsToSelf

/-! ### Frames: what two states have in common -/

/-- Every byte of memory reads the same. -/
def SameMem (s t : State) : Prop := ∀ a : Nat, t.mem.read a = s.mem.read a

/-- Every byte of memory reads the same but those of the `n`-byte transfer at `s.I`, whose byte `k` lies at
`s.ea k` (R57). -/
def SameMemBut (n : Nat) (s t : State) : Prop :=
  ∀ a : Nat, (∀ k, k < n → a ≠ s.ea k) → t.mem.read a = s.mem.read a

/-- Every general register reads the same but those listed. -/
def SameRegsBut (dst : List Nibble) (s t : State) : Prop := ∀ r : Nibble, r ∉ dst → t.reg r = s.reg r

/-- The call stack and its pointer are the same. -/
def SameStack (s t : State) : Prop := t.stack = s.stack ∧ t.sp = s.sp

/-- Both timers are the same. -/
def SameTimers (s t : State) : Prop := t.DT = s.DT ∧ t.ST = s.ST

/-- The framebuffer and the redraw flag are the same. -/
def SameScreen (s t : State) : Prop := t.fb = s.fb ∧ t.redraw = s.redraw

/-- The index register, the keypad image and the model's draw counter are the same. -/
def SameIndexKeysDraws (s t : State) : Prop := t.I = s.I ∧ t.key = s.key ∧ t.draws = s.draws

/-- Nothing differs but the listed general registers and `pc`. -/
def OnlyRegs (dst : List Nibble) (s t : State) : Prop :=
  SameRegsBut dst s t ∧ SameMem s t ∧ SameStack s t ∧ SameTimers s t ∧ SameScreen s t ∧
    SameIndexKeysDraws s t

/-- Nothing differs but `pc`. -/
def OnlyPc (s t : State) : Prop := OnlyRegs [] s t

/-- A pixel lies under a 1 bit of an in-range row of the `n`-row sprite at `s.I` with its top-left corner at
column `x0`, row `y0` (R151 to R153). -/
def UnderSprite (s : State) (x0 y0 : Byte) (n : Nat) (y : Fin 32) (x : Fin 64) : Prop :=
  ∃ r c : Nat, r < n ∧ c < 8 ∧ s.ea r ≤ 0xFFF ∧ (s.mem.read (s.ea r)).getLsbD (7 - c) = true ∧
    y.val = (y0.toNat + r) % 32 ∧ x.val = (x0.toNat + c) % 64

/-- A run under the open parameter `END_OF_RUN` (R193, decision D23), which stays an argument: the number
of STEPs before the first state it holds in, at most `fuel`. -/
def stepsUntil (endOfRun : State → Bool) : Nat → State → Option Nat
  | 0, s => if endOfRun s then some 0 else none
  | fuel + 1, s =>
    if endOfRun s then some 0
    else
      match step s with
      | .next t => (stepsUntil endOfRun fuel t).map (· + 1)
      | .fault _ => none
      | .refused _ => none

end Sys2Proof.Machine
end

