-- ==== Sys2Proof/Certificates/Slice0/Obligations.lean ====
section
/-! DEFINITION. The statements for the provers, from the numbered rules of spec/. Frames are stated with the
predicates of Sys2Proof/Safety.lean. -/

open Sys2Proof Sys2Proof.Machine

/-! ## Decoding and the STEP sequence -/

/-- R76, read with R75: a word that matches a row's mask and match decodes to that row's instruction, its
fields read from the bits the table gives them; `SYS` is every class-0 word but `00E0` and `00EE`. The
class-8 numbering is decision D7 (R78), the fixed `N` of `5XY0` and `9XY0` decision D6 (R81), log entry 11. -/
def Obligations.DecoderFollowsTheOpcodeMap : Prop :=
  ∀ op : Word,
    (op = 0x00E0#16 → decodeWord op = some .cls) ∧
    (op = 0x00EE#16 → decodeWord op = some .ret) ∧
    (op &&& 0xF000#16 = 0x0000#16 → op ≠ 0x00E0#16 → op ≠ 0x00EE#16 →
      decodeWord op = some (.sys (op.extractLsb' 0 12))) ∧
    (op &&& 0xF000#16 = 0x1000#16 → decodeWord op = some (.jp (op.extractLsb' 0 12))) ∧
    (op &&& 0xF000#16 = 0x2000#16 → decodeWord op = some (.call (op.extractLsb' 0 12))) ∧
    (op &&& 0xF000#16 = 0x3000#16 →
      decodeWord op = some (.sei (op.extractLsb' 8 4) (op.extractLsb' 0 8))) ∧
    (op &&& 0xF000#16 = 0x4000#16 →
      decodeWord op = some (.snei (op.extractLsb' 8 4) (op.extractLsb' 0 8))) ∧
    (op &&& 0xF00F#16 = 0x5000#16 →
      decodeWord op = some (.se (op.extractLsb' 8 4) (op.extractLsb' 4 4))) ∧
    (op &&& 0xF000#16 = 0x6000#16 →
      decodeWord op = some (.ldi (op.extractLsb' 8 4) (op.extractLsb' 0 8))) ∧
    (op &&& 0xF000#16 = 0x7000#16 →
      decodeWord op = some (.addi (op.extractLsb' 8 4) (op.extractLsb' 0 8))) ∧
    (op &&& 0xF00F#16 = 0x8000#16 →
      decodeWord op = some (.mov (op.extractLsb' 8 4) (op.extractLsb' 4 4))) ∧
    (op &&& 0xF00F#16 = 0x8001#16 →
      decodeWord op = some (.or (op.extractLsb' 8 4) (op.extractLsb' 4 4))) ∧
    (op &&& 0xF00F#16 = 0x8002#16 →
      decodeWord op = some (.and (op.extractLsb' 8 4) (op.extractLsb' 4 4))) ∧
    (op &&& 0xF00F#16 = 0x8003#16 →
      decodeWord op = some (.xor (op.extractLsb' 8 4) (op.extractLsb' 4 4))) ∧
    (op &&& 0xF00F#16 = 0x8004#16 →
      decodeWord op = some (.add (op.extractLsb' 8 4) (op.extractLsb' 4 4))) ∧
    (op &&& 0xF00F#16 = 0x8005#16 →
      decodeWord op = some (.sub (op.extractLsb' 8 4) (op.extractLsb' 4 4))) ∧
    (op &&& 0xF00F#16 = 0x8006#16 →
      decodeWord op = some (.shr (op.extractLsb' 8 4) (op.extractLsb' 4 4))) ∧
    (op &&& 0xF00F#16 = 0x8007#16 →
      decodeWord op = some (.subn (op.extractLsb' 8 4) (op.extractLsb' 4 4))) ∧
    (op &&& 0xF00F#16 = 0x800E#16 →
      decodeWord op = some (.shl (op.extractLsb' 8 4) (op.extractLsb' 4 4))) ∧
    (op &&& 0xF00F#16 = 0x9000#16 →
      decodeWord op = some (.sne (op.extractLsb' 8 4) (op.extractLsb' 4 4))) ∧
    (op &&& 0xF000#16 = 0xA000#16 → decodeWord op = some (.lda (op.extractLsb' 0 12))) ∧
    (op &&& 0xF000#16 = 0xB000#16 → decodeWord op = some (.jpv0 (op.extractLsb' 0 12))) ∧
    (op &&& 0xF000#16 = 0xC000#16 →
      decodeWord op = some (.rnd (op.extractLsb' 8 4) (op.extractLsb' 0 8))) ∧
    (op &&& 0xF000#16 = 0xD000#16 →
      decodeWord op = some (.drw (op.extractLsb' 8 4) (op.extractLsb' 4 4) (op.extractLsb' 0 4))) ∧
    (op &&& 0xF0FF#16 = 0xE09E#16 → decodeWord op = some (.skp (op.extractLsb' 8 4))) ∧
    (op &&& 0xF0FF#16 = 0xE0A1#16 → decodeWord op = some (.sknp (op.extractLsb' 8 4))) ∧
    (op &&& 0xF0FF#16 = 0xF007#16 → decodeWord op = some (.gdt (op.extractLsb' 8 4))) ∧
    (op &&& 0xF0FF#16 = 0xF00A#16 → decodeWord op = some (.key (op.extractLsb' 8 4))) ∧
    (op &&& 0xF0FF#16 = 0xF015#16 → decodeWord op = some (.sdt (op.extractLsb' 8 4))) ∧
    (op &&& 0xF0FF#16 = 0xF018#16 → decodeWord op = some (.sst (op.extractLsb' 8 4))) ∧
    (op &&& 0xF0FF#16 = 0xF01E#16 → decodeWord op = some (.adda (op.extractLsb' 8 4))) ∧
    (op &&& 0xF0FF#16 = 0xF029#16 → decodeWord op = some (.fnt (op.extractLsb' 8 4))) ∧
    (op &&& 0xF0FF#16 = 0xF033#16 → decodeWord op = some (.bcd (op.extractLsb' 8 4))) ∧
    (op &&& 0xF0FF#16 = 0xF055#16 → decodeWord op = some (.stm (op.extractLsb' 8 4))) ∧
    (op &&& 0xF0FF#16 = 0xF065#16 → decodeWord op = some (.ldm (op.extractLsb' 8 4)))

/-- Decoding the encoding of a well-formed instruction gives it back, from the word and from the bytes in
memory order with anything after them. -/
def Obligations.DecodeOfEncodeIsTheInstruction : Prop :=
  ∀ (i : Instr) (rest : List Byte), i.wellFormed = true →
    decodeWord (encode i) = some i ∧ decode (encodeBytes i ++ rest) = .ok (i, rest)

/-- A recognized word is the encoding of the instruction it decodes to, and that instruction is
well-formed: decoding and encoding are inverse bijections (R84; the names are decision D21). -/
def Obligations.EncodeOfDecodeIsTheWord : Prop :=
  ∀ (op : Word) (i : Instr), decodeWord op = some i → encode i = op ∧ i.wellFormed = true

/-- The unrecognized words are exactly those of the last column of R79: class 5 or 9 with `N` not 0
(decision D6), class 8 with a selector that has no operation (decision D7), class E or F with an `NN` that
is no row of table R76. -/
def Obligations.UnrecognizedWordsAreTheReservedOnes : Prop :=
  ∀ op : Word, decodeWord op = none ↔
    ((fieldCls op = 0x5 ∨ fieldCls op = 0x9) ∧ fieldN op ≠ 0x0) ∨
    (fieldCls op = 0x8 ∧ 8 ≤ (fieldN op).toNat ∧ fieldN op ≠ 0xE) ∨
    (fieldCls op = 0xE ∧ fieldNN op ∉ [(0x9E : Byte), 0xA1]) ∨
    (fieldCls op = 0xF ∧
      fieldNN op ∉ [(0x07 : Byte), 0x0A, 0x15, 0x18, 0x1E, 0x29, 0x33, 0x55, 0x65])

/-- Some words written out bit by bit from the layouts of R73 decode to the instructions they stand for. -/
def Obligations.SampleWordsDecode : Prop :=
  decodeWord 0b0000000011100000#16 = some .cls ∧
  decodeWord 0b0010001000001010#16 = some (.call 0x20A) ∧
  decodeWord 0b0011001100101010#16 = some (.sei 0x3 0x2A) ∧
  decodeWord 0b1000000100100100#16 = some (.add 0x1 0x2) ∧
  decodeWord 0b1101000000010101#16 = some (.drw 0x0 0x1 0x5) ∧
  decodeWord 0b1110010010011110#16 = some (.skp 0x4) ∧
  decodeWord 0b1111001001100101#16 = some (.ldm 0x2)

/-- R70 and R72: the fetch bound, the big-endian fetch, decode, and the execution of the one decoded
instruction, with the two outputs of the STEP. A step runs the decoded instruction and adds nothing
around it. The effect beyond the fetch bound is decision D11 and that of an unrecognized word D5. -/
def Obligations.StepRunsTheDecodedInstruction : Prop :=
  ∀ s : State,
    (0xFFE < s.pc.toNat →
      step s = .next s ∧ stepOutcome s = .fetchOob ∧ stepDiag s = [.fetchOutOfBounds]) ∧
    (s.pc.toNat ≤ 0xFFE → ∃ op : Word,
      op.toNat = (s.mem.read s.pc.toNat).toNat * 256 + (s.mem.read (s.pc.toNat + 1)).toNat ∧
      (decodeWord op = none →
        step s = .next s ∧ stepOutcome s = .unknown ∧ stepDiag s = [.unknownOpcode]) ∧
      (∀ i : Instr, decodeWord op = some i →
        step s = exec i s ∧ stepOutcome s = outcomeOf i s ∧ stepDiag s = diagOf i s))

/-- `withFetchWord` places an instruction where the next step fetches it: the step of that state runs
exactly the instruction the decoder reads from the word, on the state with the word in place. It is about the
model's own loading of a word (log entry 5). -/
def Obligations.PlacedWordIsTheNextInstruction : Prop :=
  ∀ (s : State) (w : Nat) (i : Instr), w < 65536 → decodeTableWord 16 w = some i →
    step (s.withFetchWord 16 w) = exec i (s.withFetchWord 16 w) ∧
    (s.pc.toNat ≤ 0xFFE → (s.withFetchWord 16 w).pc = s.pc) ∧
    (0xFFE < s.pc.toNat → (s.withFetchWord 16 w).pc = 0x200#16) ∧
    (∀ a : Nat, a ≠ (s.withFetchWord 16 w).pc.toNat → a ≠ (s.withFetchWord 16 w).pc.toNat + 1 →
      (s.withFetchWord 16 w).mem.read a = s.mem.read a)

/-- A fetch beyond memory holds the core for ever: any number of STEPs leaves the state as it is. The
effect is decision D11 (R71). -/
def Obligations.FetchBeyondMemoryHoldsForEver : Prop :=
  ∀ (s : State) (n : Nat), 0xFFE < s.pc.toNat →
    core.run n s = .next s ∧ stepOutcome s = .fetchOob ∧ stepDiag s = [.fetchOutOfBounds]

/-- An unrecognized word holds the core for ever: whatever events but RESET follow, the core stays on the
same word with `pc` and memory as they were and every STEP answers `UNKNOWN` (R80, decision D5). -/
def Obligations.UnrecognizedWordHoldsUntilReset : Prop :=
  ∀ (s : State) (es : List Event), s.heldUnknown = true →
    (∀ e, e ∈ es → ∀ rom, e ≠ .reset rom) →
    ∃ t, runEvents (some s) es = some t ∧ t.heldUnknown = true ∧ t.pc = s.pc ∧ t.mem = s.mem ∧
      t.v = s.v ∧ t.I = s.I ∧ SameStack s t ∧ step t = .next t ∧ stepDiag t = [.unknownOpcode]

/-- No instruction and no STEP stops the machine with a fault or a refusal, in any state (R13, R176).
That the unrecognized word and the fetch beyond memory are next states rests on decisions D5 and D11 (log
entry 4). -/
def Obligations.StepAlwaysAnswersAState : Prop :=
  ∀ s : State, (∃ t, step s = .next t) ∧ ∀ i : Instr, ∃ t, exec i s = .next t

/-! ## Control flow -/

/-- R100: `RET` on an empty stack only advances `pc` and reports the underflow; else it pops and goes to
the popped entry, the address of the `CALL`, plus 2. No entry changes: that the popped one keeps its value is
the spec's inference (R100, decision D20). -/
def Obligations.ReturnGoesPastTheCall : Prop :=
  ∀ s : State, ∃ t, exec .ret s = .next t ∧
    SameRegsBut [] s t ∧ SameMem s t ∧ SameTimers s t ∧ SameScreen s t ∧ SameIndexKeysDraws s t ∧
    t.stack = s.stack ∧
    (s.sp.val = 0 → t.sp = s.sp ∧ t.pc = s.pc + 2#16 ∧ diagOf .ret s = [.stackUnderflow]) ∧
    (0 < s.sp.val → diagOf .ret s = [] ∧ t.sp.val + 1 = s.sp.val ∧
      ∀ k : Fin 16, k.val + 1 = s.sp.val → t.pc = s.stack[k] + 2#16)

/-- R103: `CALL` on a full stack only advances `pc` and reports the overflow; else it pushes its own
address and jumps. -/
def Obligations.CallPushesItsOwnAddress : Prop :=
  ∀ (s : State) (nnn : Addr12), ∃ t, exec (.call nnn) s = .next t ∧
    SameRegsBut [] s t ∧ SameMem s t ∧ SameTimers s t ∧ SameScreen s t ∧ SameIndexKeysDraws s t ∧
    (s.sp.val = 16 → SameStack s t ∧ t.pc = s.pc + 2#16 ∧
      diagOf (.call nnn) s = [.stackOverflow]) ∧
    (s.sp.val < 16 → t.sp.val = s.sp.val + 1 ∧ t.pc.toNat = nnn.toNat ∧
      diagOf (.call nnn) s = [] ∧
      ∀ k : Fin 16, t.stack[k] = if k.val = s.sp.val then s.pc else s.stack[k])

/-- A `RET` that follows a `CALL` that was executed, whatever the subroutine did to everything but the
stack, continues after the `CALL` with the stack pointer as it was. -/
def Obligations.CallThenReturnContinuesAfterTheCall : Prop :=
  ∀ (s t u : State) (nnn : Addr12), s.sp.val < 16 → exec (.call nnn) s = .next t →
    SameStack t u → ∃ w, exec .ret u = .next w ∧ w.pc = s.pc + 2#16 ∧ w.sp = s.sp ∧
      ∀ k : Fin 16, k.val < s.sp.val → w.stack[k] = s.stack[k]

/-- R101, R102: `SYS` and `JP` go to `NNN` and change nothing else, and every word of class 0 but `00E0` and
`00EE` is a `SYS`. -/
def Obligations.JumpsGoToTheirAddress : Prop :=
  (∀ op : Word, fieldCls op = 0x0 → op ≠ 0x00E0#16 → op ≠ 0x00EE#16 →
    decodeWord op = some (.sys (fieldNNN op))) ∧
  ∀ (s : State) (nnn : Addr12),
    (∃ t, exec (.sys nnn) s = .next t ∧ t.pc.toNat = nnn.toNat ∧ OnlyPc s t ∧
      diagOf (.sys nnn) s = []) ∧
    (∃ t, exec (.jp nnn) s = .next t ∧ t.pc.toNat = nnn.toNat ∧ OnlyPc s t ∧
      diagOf (.jp nnn) s = [])

/-- R104: `JPV0` goes to the plain sum of `NNN` and `v[0]` and changes nothing else. -/
def Obligations.IndexedJumpAddsRegisterZero : Prop :=
  ∀ (s : State) (nnn : Addr12), ∃ t, exec (.jpv0 nnn) s = .next t ∧
    t.pc.toNat = nnn.toNat + (s.reg 0x0).toNat ∧ OnlyPc s t ∧ diagOf (.jpv0 nnn) s = []

/-- R110 to R113: the four register-compare skips, with every operand. -/
def Obligations.SkipsCompareForEquality : Prop :=
  ∀ (s : State) (x y : Nibble) (nn : Byte),
    (∃ t, exec (.sei x nn) s = .next t ∧ OnlyPc s t ∧ diagOf (.sei x nn) s = [] ∧
      t.pc = s.pc + (if (s.reg x).toNat = nn.toNat then 4#16 else 2#16)) ∧
    (∃ t, exec (.snei x nn) s = .next t ∧ OnlyPc s t ∧ diagOf (.snei x nn) s = [] ∧
      t.pc = s.pc + (if (s.reg x).toNat ≠ nn.toNat then 4#16 else 2#16)) ∧
    (∃ t, exec (.se x y) s = .next t ∧ OnlyPc s t ∧ diagOf (.se x y) s = [] ∧
      t.pc = s.pc + (if (s.reg x).toNat = (s.reg y).toNat then 4#16 else 2#16)) ∧
    (∃ t, exec (.sne x y) s = .next t ∧ OnlyPc s t ∧ diagOf (.sne x y) s = [] ∧
      t.pc = s.pc + (if (s.reg x).toNat ≠ (s.reg y).toNat then 4#16 else 2#16))

/-- R24, last row: every instruction with no rule of its own for `pc`, and a `KEY` with a key pressed,
advances `pc` by 2. -/
def Obligations.OtherInstructionsAdvanceByTwo : Prop :=
  ∀ (i : Instr) (s : State), i.setsPc = false →
    (∀ x, i = .key x → ∃ k : Fin 16, s.key[k] = true) →
    ∃ t, exec i s = .next t ∧ t.pc = s.pc + 2#16

/-! ## Arithmetic and logic -/

/-- R120, R122: `LDI` and `MOV` write one register, with any destination, `v[15]` among them. -/
def Obligations.LoadsCopyTheirOperand : Prop :=
  ∀ (s : State) (x y : Nibble) (nn : Byte),
    (∃ t, exec (.ldi x nn) s = .next t ∧ t.reg x = nn ∧ t.pc = s.pc + 2#16 ∧ OnlyRegs [x] s t ∧
      diagOf (.ldi x nn) s = []) ∧
    (∃ t, exec (.mov x y) s = .next t ∧ t.reg x = s.reg y ∧ t.pc = s.pc + 2#16 ∧
      OnlyRegs [x] s t ∧ diagOf (.mov x y) s = [])

/-- R121: `ADDI` adds modulo 256 and leaves `VF` alone unless it is the destination. -/
def Obligations.AddImmediateSetsNoFlag : Prop :=
  ∀ (s : State) (x : Nibble) (nn : Byte), ∃ t, exec (.addi x nn) s = .next t ∧
    (t.reg x).toNat = ((s.reg x).toNat + nn.toNat) % 256 ∧ t.pc = s.pc + 2#16 ∧
    OnlyRegs [x] s t ∧ (x ≠ vf → t.reg vf = s.reg vf) ∧ diagOf (.addi x nn) s = []

/-- `OR`, `AND`, `XOR` work bit by bit and write the destination only; that they do not touch `VF` is
decision D26 (R123 to R125). -/
def Obligations.LogicWritesNoFlag : Prop :=
  ∀ (s : State) (x y : Nibble),
    (∃ t, exec (.or x y) s = .next t ∧ t.pc = s.pc + 2#16 ∧ OnlyRegs [x] s t ∧
      (∀ k, k < 8 → (t.reg x).getLsbD k = ((s.reg x).getLsbD k || (s.reg y).getLsbD k))) ∧
    (∃ t, exec (.and x y) s = .next t ∧ t.pc = s.pc + 2#16 ∧ OnlyRegs [x] s t ∧
      (∀ k, k < 8 → (t.reg x).getLsbD k = ((s.reg x).getLsbD k && (s.reg y).getLsbD k))) ∧
    (∃ t, exec (.xor x y) s = .next t ∧ t.pc = s.pc + 2#16 ∧ OnlyRegs [x] s t ∧
      (∀ k, k < 8 → (t.reg x).getLsbD k = ((s.reg x).getLsbD k ^^ (s.reg y).getLsbD k)))

/-- R126: `ADD` sets `VF` to the carry for all `X`, `Y`, and the destination to the sum modulo 256 when it
is not `VF`. -/
def Obligations.AddSetsCarry : Prop :=
  ∀ (s : State) (x y : Nibble), ∃ t, exec (.add x y) s = .next t ∧
    (t.reg vf).toNat = (if 255 < (s.reg x).toNat + (s.reg y).toNat then 1 else 0) ∧
    (x ≠ vf → (t.reg x).toNat = ((s.reg x).toNat + (s.reg y).toNat) % 256) ∧
    t.pc = s.pc + 2#16 ∧ OnlyRegs [x, vf] s t ∧ diagOf (.add x y) s = []

/-- R127: `SUB` sets `VF` to NOT borrow for all `X`, `Y`, and the destination to the difference modulo 256
when it is not `VF`. -/
def Obligations.SubtractSetsNotBorrow : Prop :=
  ∀ (s : State) (x y : Nibble), ∃ t, exec (.sub x y) s = .next t ∧
    (t.reg vf).toNat = (if (s.reg y).toNat ≤ (s.reg x).toNat then 1 else 0) ∧
    (x ≠ vf → (t.reg x).toNat = (256 + (s.reg x).toNat - (s.reg y).toNat) % 256) ∧
    t.pc = s.pc + 2#16 ∧ OnlyRegs [x, vf] s t ∧ diagOf (.sub x y) s = []

/-- `SUBN` subtracts the other way and sets `VF` to NOT borrow; that the flag wins for `X = 15` is decision
D8 (R129, R119). -/
def Obligations.ReverseSubtractSetsNotBorrow : Prop :=
  ∀ (s : State) (x y : Nibble), ∃ t, exec (.subn x y) s = .next t ∧
    (t.reg vf).toNat = (if (s.reg x).toNat ≤ (s.reg y).toNat then 1 else 0) ∧
    (x ≠ vf → (t.reg x).toNat = (256 + (s.reg y).toNat - (s.reg x).toNat) % 256) ∧
    t.pc = s.pc + 2#16 ∧ OnlyRegs [x, vf] s t ∧ diagOf (.subn x y) s = []

/-- `SHR` and `SHL` shift `v[X]` by one and set `VF` to the bit shifted out; `Y` plays no part: every `Y`
gives the same answer (R128, R130, R82). That the flag wins for `X = 15` is decision D8. -/
def Obligations.ShiftsSetTheBitShiftedOut : Prop :=
  ∀ (s : State) (x y z : Nibble),
    (∃ t, exec (.shr x y) s = .next t ∧ (t.reg vf).toNat = (s.reg x).toNat % 2 ∧
      (x ≠ vf → (t.reg x).toNat = (s.reg x).toNat / 2) ∧ t.pc = s.pc + 2#16 ∧
      OnlyRegs [x, vf] s t ∧ exec (.shr x z) s = .next t) ∧
    (∃ t, exec (.shl x y) s = .next t ∧ (t.reg vf).toNat = (s.reg x).toNat / 128 ∧
      (x ≠ vf → (t.reg x).toNat = 2 * (s.reg x).toNat % 256) ∧ t.pc = s.pc + 2#16 ∧
      OnlyRegs [x, vf] s t ∧ exec (.shl x z) s = .next t)

/-- `RND` writes the masked random byte. With the byte given, every byte is admitted and gives
`rnd AND NN`; under `step` it is the free value of the draw counter, of which the statement uses only that
a fresh draw is counted, and holds for every value of the counter (R131; decision D4, log entry 1). -/
def Obligations.RandomByteIsMasked : Prop :=
  ∀ (s : State) (x : Nibble) (nn : Byte),
    (∃ t, exec (.rnd x nn) s = .next t ∧ t.reg x &&& ~~~nn = 0 ∧ t.pc = s.pc + 2#16 ∧
      SameRegsBut [x] s t ∧ SameMem s t ∧ SameStack s t ∧ SameTimers s t ∧ SameScreen s t ∧
      t.I = s.I ∧ t.key = s.key ∧ t.draws = s.draws + 1) ∧
    (∀ rnd : Byte, s.fetch? = some (encode (.rnd x nn)) →
      ∃ t, stepWith rnd s = .next t ∧ t.reg x = rnd &&& nn ∧ t.pc = s.pc + 2#16 ∧ OnlyRegs [x] s t)

/-- The random byte is consumed by `CXNN` only: a STEP of any other instruction is the same for every
`rnd`, and the draw counter stays (R131, R188; decision D4, log entry 1). -/
def Obligations.OnlyRndReadsTheRandomByte : Prop :=
  ∀ (s : State), (∀ x nn, s.fetch? ≠ some (encode (.rnd x nn))) →
    ∃ t, step s = .next t ∧ t.draws = s.draws ∧ ∀ rnd : Byte, stepWith rnd s = .next t

/-- The table of R22: the only instructions that can change `VF` are the six flag writers, those whose
`X` field names it as their destination, and `LDM` with `X = 15`. That the logic operations are not among
the flag writers is decision D26. -/
def Obligations.OnlyListedInstructionsWriteVF : Prop :=
  ∀ (i : Instr) (s t : State), exec i s = .next t → t.reg vf ≠ s.reg vf →
    (∃ x y, i = .add x y ∨ i = .sub x y ∨ i = .subn x y ∨ i = .shr x y ∨ i = .shl x y) ∨
    (∃ x y n, i = .drw x y n) ∨
    (∃ y, i = .mov vf y ∨ i = .or vf y ∨ i = .and vf y ∨ i = .xor vf y) ∨
    (∃ nn, i = .ldi vf nn ∨ i = .addi vf nn ∨ i = .rnd vf nn) ∨
    i = .gdt vf ∨ i = .key vf ∨ i = .ldm vf

/-! ## Index register and memory -/

/-- R140: `LDA` loads the index register and changes nothing else. -/
def Obligations.LoadAddressWritesIndex : Prop :=
  ∀ (s : State) (nnn : Addr12), ∃ t, exec (.lda nnn) s = .next t ∧
    t.I.toNat = nnn.toNat ∧ t.pc = s.pc + 2#16 ∧ SameRegsBut [] s t ∧ SameMem s t ∧ SameStack s t ∧
    SameTimers s t ∧ SameScreen s t ∧ t.key = s.key ∧ t.draws = s.draws ∧ diagOf (.lda nnn) s = []

/-- `ADDA` adds modulo 65536 and sets no flag (decision D26, R141); `FNT` computes `v[X] * 5 + FX29_BASE`
on the whole byte, whatever value the parameter has (decision D16, log entry 2, R142). -/
def Obligations.IndexArithmetic : Prop :=
  ∀ (s : State) (x : Nibble),
    (∃ t, exec (.adda x) s = .next t ∧ t.I.toNat = (s.I.toNat + (s.reg x).toNat) % 65536 ∧
      t.pc = s.pc + 2#16 ∧ SameRegsBut [] s t ∧ SameMem s t ∧ SameStack s t ∧ SameTimers s t ∧
      SameScreen s t ∧ t.key = s.key ∧ t.draws = s.draws) ∧
    (∃ t, exec (.fnt x) s = .next t ∧
      t.I.toNat = ((s.reg x).toNat * 5 + fx29Base) % 65536 ∧
      t.pc = s.pc + 2#16 ∧ SameRegsBut [] s t ∧ SameMem s t ∧ SameStack s t ∧ SameTimers s t ∧
      SameScreen s t ∧ t.key = s.key ∧ t.draws = s.draws)

/-- `BCD` stores hundreds, tens and units at `I`, `I + 1`, `I + 2`, leaves `I` alone, and skips each byte
above 0xFFF by itself (the skip is decision D14, the sum `I + k` without wrap D13; R143). Byte `k` is stored
at `s.ea k`. -/
def Obligations.BcdStoresTheDecimalDigits : Prop :=
  ∀ (s : State) (x : Nibble), ∃ t, exec (.bcd x) s = .next t ∧
    (s.ea 0 ≤ 0xFFF → (t.mem.read (s.ea 0)).toNat = (s.reg x).toNat / 100) ∧
    (s.ea 1 ≤ 0xFFF → (t.mem.read (s.ea 1)).toNat = (s.reg x).toNat / 10 % 10) ∧
    (s.ea 2 ≤ 0xFFF → (t.mem.read (s.ea 2)).toNat = (s.reg x).toNat % 10) ∧
    SameMemBut 3 s t ∧ (∀ a : Nat, 0xFFF < a → t.mem.read a = s.mem.read a) ∧
    t.pc = s.pc + 2#16 ∧ SameRegsBut [] s t ∧ SameStack s t ∧ SameTimers s t ∧ SameScreen s t ∧
    SameIndexKeysDraws s t ∧
    diagOf (.bcd x) s = if s.ea 2 ≤ 0xFFF then [] else [.memOutOfBounds]

/-- `STM` stores `v[0]` to `v[X]` at `I` to `I + X`, advances `I` by `X + 1`, and skips each byte above
0xFFF by itself (decisions D13, D14; R144). Register `k` is stored at `s.ea k`. -/
def Obligations.StoreMultipleStoresTheRegisters : Prop :=
  ∀ (s : State) (x : Nibble), ∃ t, exec (.stm x) s = .next t ∧
    (∀ k : Nibble, k.toNat ≤ x.toNat → s.ea k.toNat ≤ 0xFFF →
      t.mem.read (s.ea k.toNat) = s.reg k) ∧
    SameMemBut (x.toNat + 1) s t ∧ (∀ a : Nat, 0xFFF < a → t.mem.read a = s.mem.read a) ∧
    t.I.toNat = (s.I.toNat + x.toNat + 1) % 65536 ∧ t.pc = s.pc + 2#16 ∧ SameRegsBut [] s t ∧
    SameStack s t ∧ SameTimers s t ∧ SameScreen s t ∧ t.key = s.key ∧ t.draws = s.draws ∧
    diagOf (.stm x) s = if s.ea x.toNat ≤ 0xFFF then [] else [.memOutOfBounds]

/-- `LDM` loads `v[0]` to `v[X]` from `I` to `I + X` and advances `I` by `X + 1`; a register whose address
is above 0xFFF keeps its value (decisions D13, D14; R145). -/
def Obligations.LoadMultipleLoadsTheRegisters : Prop :=
  ∀ (s : State) (x : Nibble), ∃ t, exec (.ldm x) s = .next t ∧
    (∀ k : Nibble, t.reg k =
      if k.toNat ≤ x.toNat ∧ s.ea k.toNat ≤ 0xFFF then s.mem.read (s.ea k.toNat) else s.reg k) ∧
    t.I.toNat = (s.I.toNat + x.toNat + 1) % 65536 ∧ t.pc = s.pc + 2#16 ∧ SameMem s t ∧
    SameStack s t ∧ SameTimers s t ∧ SameScreen s t ∧ t.key = s.key ∧ t.draws = s.draws ∧
    diagOf (.ldm x) s = if s.ea x.toNat ≤ 0xFFF then [] else [.memOutOfBounds]

/-- The source's property E5: `STM` followed by `LDM` at the same index and the same `X` leaves `v[0]` to
`v[X]` as they were, whatever happened to the registers between, for every index in or out of range (out of range by decision
D14). -/
def Obligations.StoreLoadRoundTrip : Prop :=
  ∀ (s t u w : State) (x : Nibble), exec (.stm x) s = .next t → u.mem = t.mem → u.I = s.I →
    (∀ k : Nibble, k.toNat ≤ x.toNat → 0xFFF < s.ea k.toNat → u.reg k = s.reg k) →
    exec (.ldm x) u = .next w → ∀ k : Nibble, k.toNat ≤ x.toNat → w.reg k = s.reg k

/-- Instruction-fetch coherence (R64): after an `STM` that stored two bytes where `pc` then stands, the
next fetch sees the new bytes. -/
def Obligations.StoredBytesAreFetchedNext : Prop :=
  ∀ (s t : State) (x k : Nibble), exec (.stm x) s = .next t → k.toNat + 1 ≤ x.toNat →
    s.ea k.toNat = (s.pc + 2#16).toNat → s.ea k.toNat ≤ 0xFFE →
    t.fetch? = some (wordOfBytes (s.reg k) (s.reg (k + 1)))

/-- Two memories in canonical form that read the same everywhere are the same memory. -/
def Obligations.CanonicalMemoryIsDeterminedByItsReads : Prop :=
  ∀ m m' : Memory, m.wf → m'.wf → (∀ a : Nat, m.read a = m'.read a) → m = m'

/-! ## Display -/

/-- R150: every pixel off, `redraw` set, `VF` and everything else unchanged. -/
def Obligations.ClearScreenTurnsEveryPixelOff : Prop :=
  ∀ s : State, ∃ t, exec .cls s = .next t ∧
    (∀ (y : Fin 32) (x : Fin 64), pixelPort t y x = false) ∧ t.redraw = true ∧ t.pc = s.pc + 2#16 ∧
    SameRegsBut [] s t ∧ SameMem s t ∧ SameStack s t ∧ SameTimers s t ∧ SameIndexKeysDraws s t ∧
    diagOf .cls s = []

/-- `DRW` toggles exactly the pixels under the sprite, whatever `X`, `Y` and `N`; `VF` is 1 if one of them
was on, else 0; `redraw` is set; `I` stays. The coordinates are those before `VF` is written (decision D9),
the bit order is decision D10, and addresses are not wrapped (decision D13) (R151 to R155). -/
def Obligations.DrawTogglesThePixelsUnderTheSprite : Prop :=
  ∀ (s : State) (x y n : Nibble), ∃ t, exec (.drw x y n) s = .next t ∧
    (∀ (py : Fin 32) (px : Fin 64),
      (UnderSprite s (s.reg x) (s.reg y) n.toNat py px → pixelPort t py px = ! pixelPort s py px) ∧
      (¬ UnderSprite s (s.reg x) (s.reg y) n.toNat py px → pixelPort t py px = pixelPort s py px)) ∧
    ((∃ py px, UnderSprite s (s.reg x) (s.reg y) n.toNat py px ∧ pixelPort s py px = true) →
      t.reg vf = 1) ∧
    ((¬ ∃ py px, UnderSprite s (s.reg x) (s.reg y) n.toNat py px ∧ pixelPort s py px = true) →
      t.reg vf = 0) ∧
    t.redraw = true ∧ t.pc = s.pc + 2#16 ∧ SameRegsBut [vf] s t ∧ SameMem s t ∧ SameStack s t ∧
    SameTimers s t ∧ SameIndexKeysDraws s t ∧
    ((∀ r, r < n.toNat → s.ea r ≤ 0xFFF) → diagOf (.drw x y n) s = []) ∧
    ((∃ r, r < n.toNat ∧ 0xFFF < s.ea r) → diagOf (.drw x y n) s = [.memOutOfBounds])

/-- Drawing the same sprite at the same place twice restores the framebuffer, and `VF` then says whether a
touched pixel was off before the first draw (R155 (b), an inference of the spec from the source's property E4;
the bit order in `UnderSprite` is decision D10). -/
def Obligations.DoubleDrawRestoresTheFramebuffer : Prop :=
  ∀ (s t u : State) (x y n : Nibble), x ≠ vf → y ≠ vf → exec (.drw x y n) s = .next t →
    exec (.drw x y n) t = .next u →
    (∀ (py : Fin 32) (px : Fin 64), pixelPort u py px = pixelPort s py px) ∧
    (u.reg vf = 1 ↔
      ∃ py px, UnderSprite s (s.reg x) (s.reg y) n.toNat py px ∧ pixelPort s py px = false)

/-- No sprite ever reaches a cell outside the 2048-cell buffer, so code 5 is never raised (R153, an inference
of the spec). -/
def Obligations.PixelOutOfBoundsIsNeverRaised : Prop :=
  ∀ s : State, Diag.pixelOutOfBounds ∉ stepDiag s ∧
    ∀ (x0 y0 : Byte) (n : Nat), ∀ cell ∈ spriteCells x0 y0 n, cell < 2048

/-! ## Keypad and timers -/

/-- `SKP` and `SKNP` test the key whose number is the whole byte `v[X]`; a number of 16 or more makes
neither skip and is reported (decision D15; R160, R161). -/
def Obligations.KeySkipsTestTheNumberedKey : Prop :=
  ∀ (s : State) (x : Nibble),
    (∃ t, exec (.skp x) s = .next t ∧ OnlyPc s t ∧
      (∀ k : Fin 16, (s.reg x).toNat = k.val → diagOf (.skp x) s = [] ∧
        t.pc = s.pc + (if s.key[k] = true then 4#16 else 2#16)) ∧
      (16 ≤ (s.reg x).toNat → t.pc = s.pc + 2#16 ∧ diagOf (.skp x) s = [.keyIndexOutOfRange])) ∧
    (∃ t, exec (.sknp x) s = .next t ∧ OnlyPc s t ∧
      (∀ k : Fin 16, (s.reg x).toNat = k.val → diagOf (.sknp x) s = [] ∧
        t.pc = s.pc + (if s.key[k] = true then 2#16 else 4#16)) ∧
      (16 ≤ (s.reg x).toNat → t.pc = s.pc + 2#16 ∧ diagOf (.sknp x) s = [.keyIndexOutOfRange]))

/-- R162: `KEY` with no key pressed changes nothing and answers `WAIT_KEY`; else it writes the lowest
pressed key and advances. -/
def Obligations.KeyWaitsForTheLowestPressedKey : Prop :=
  ∀ (s : State) (x : Nibble),
    ((∀ k : Fin 16, s.key[k] = false) →
      exec (.key x) s = .next s ∧ outcomeOf (.key x) s = .waitKey ∧ diagOf (.key x) s = []) ∧
    (∀ k : Fin 16, s.key[k] = true → (∀ j : Fin 16, j < k → s.key[j] = false) →
      ∃ t, exec (.key x) s = .next t ∧ (t.reg x).toNat = k.val ∧ t.pc = s.pc + 2#16 ∧
        OnlyRegs [x] s t ∧ outcomeOf (.key x) s ≠ .waitKey ∧ diagOf (.key x) s = [])

/-- R163 to R165: the three timer instructions. -/
def Obligations.TimerInstructionsCopyTheTimers : Prop :=
  ∀ (s : State) (x : Nibble),
    (∃ t, exec (.gdt x) s = .next t ∧ t.reg x = s.DT ∧ t.pc = s.pc + 2#16 ∧ OnlyRegs [x] s t ∧
      diagOf (.gdt x) s = []) ∧
    (∃ t, exec (.sdt x) s = .next t ∧ t.DT = s.reg x ∧ t.ST = s.ST ∧ t.pc = s.pc + 2#16 ∧
      SameRegsBut [] s t ∧ SameMem s t ∧ SameStack s t ∧ SameScreen s t ∧ SameIndexKeysDraws s t ∧
      diagOf (.sdt x) s = []) ∧
    (∃ t, exec (.sst x) s = .next t ∧ t.ST = s.reg x ∧ t.DT = s.DT ∧ t.pc = s.pc + 2#16 ∧
      SameRegsBut [] s t ∧ SameMem s t ∧ SameStack s t ∧ SameScreen s t ∧ SameIndexKeysDraws s t ∧
      diagOf (.sst x) s = [])

/-! ## Events -/

/-- R36, R200: what RESET leaves in every element of the state, for every ROM of at most 3584 bytes; with
the empty ROM it is `State.reset`. The font's bytes are those of the parameter `FONT`, of which only glyph 0
is asserted. -/
def Obligations.ResetLeavesTheStatedValues : Prop :=
  resetWith [] = .next State.reset ∧
  ∀ rom : List Byte, rom.length ≤ 3584 → ∃ t, resetWith rom = .next t ∧
    (∀ a : Nat, a < 0x050 → t.mem.read a = 0) ∧
    (∀ k : Nat, k < 80 → font[k]? = some (t.mem.read (0x050 + k))) ∧
    (∀ a : Nat, 0x0A0 ≤ a → a < 0x200 → t.mem.read a = 0) ∧
    (∀ k : Nat, k < rom.length → rom[k]? = some (t.mem.read (0x200 + k))) ∧
    (∀ a : Nat, 0x200 + rom.length ≤ a → a ≤ 0xFFF → t.mem.read a = 0) ∧
    font.take 5 = [0xF0, 0x90, 0x90, 0x90, 0xF0] ∧
    (∀ r : Nibble, t.reg r = 0) ∧ t.I = 0 ∧ t.pc = 0x200 ∧ t.sp.val = 0 ∧
    (∀ k : Fin 16, t.stack[k] = 0) ∧ t.DT = 0 ∧ t.ST = 0 ∧
    (∀ (y : Fin 32) (x : Fin 64), pixelPort t y x = false) ∧ t.redraw = false ∧
    (∀ k : Fin 16, t.key[k] = false)

/-- RESET with more than 3584 bytes is refused and leaves no state, a RESET discards whatever was before it,
and without a state no other event has an effect (R201, R202; decisions D22, D27). -/
def Obligations.OversizeResetLeavesNoState : Prop :=
  ∀ (rom : List Byte) (b : Option State),
    Event.apply (.reset rom) b = resetWith rom ∧
    (3584 < rom.length → resetWith rom = .refused .romTooLarge ∧ Event.after (.reset rom) b = none) ∧
    ∀ e : Event, (∀ rom', e ≠ .reset rom') →
      e.apply none = .refused .noState ∧ e.after none = none

/-- TICK counts both timers down by one, stopping at zero, and touches nothing else (R180; that the
countdown is inside the block is decision D3). -/
def Obligations.TickCountsBothTimersDown : Prop :=
  ∀ s : State, Event.onState .tick s = .next (tick s) ∧
    (tick s).DT.toNat = s.DT.toNat - 1 ∧ (tick s).ST.toNat = s.ST.toNat - 1 ∧
    (tick s).pc = s.pc ∧ SameRegsBut [] s (tick s) ∧ SameMem s (tick s) ∧ SameStack s (tick s) ∧
    SameScreen s (tick s) ∧ SameIndexKeysDraws s (tick s)

/-- R181: a sound timer left alone gives its cue at exactly one TICK, the one at which it goes from 1 to 0;
a timer at zero gives none. -/
def Obligations.SoundCueComesExactlyOnce : Prop :=
  ∀ (s : State) (j : Nat), soundCue (Nat.repeat tick j s) = true ↔ s.ST.toNat = j + 1

/-- R218: a delay timer left alone reads zero from the `t`-th TICK on (the countdown inside the block is
decision D3). -/
def Obligations.DelayTimerReachesZero : Prop :=
  ∀ (s : State) (j : Nat), (Nat.repeat tick j s).DT.toNat = s.DT.toNat - j ∧
    (Nat.repeat tick j s).ST.toNat = s.ST.toNat - j

/-- KEYS overwrites the whole keypad image, whatever it was, and nothing else; REDRAW_ACK clears the redraw
flag and nothing else (R184, decision D28; R186, decision D1). -/
def Obligations.KeysAndAckWriteTheirOwnElement : Prop :=
  ∀ (s : State) (k : BitVec 16),
    (∃ t, Event.onState (.keys k) s = .next t ∧ (∀ j : Fin 16, t.key[j] = k.getLsbD j.val) ∧
      t.pc = s.pc ∧ SameRegsBut [] s t ∧ SameMem s t ∧ SameStack s t ∧ SameTimers s t ∧
      SameScreen s t ∧ t.I = s.I ∧ t.draws = s.draws) ∧
    (∃ t, Event.onState .redrawAck s = .next t ∧ t.redraw = false ∧ t.fb = s.fb ∧
      t.pc = s.pc ∧ SameRegsBut [] s t ∧ SameMem s t ∧ SameStack s t ∧ SameTimers s t ∧
      SameIndexKeysDraws s t)

/-- The table of R50, column "written by", and the writers R26 to R31 name: in an instruction's execution only the listed instructions
change each storage. -/
def Obligations.EachStorageHasItsListedWriters : Prop :=
  ∀ (i : Instr) (s t : State), exec i s = .next t →
    ((∃ a : Nat, t.mem.read a ≠ s.mem.read a) → ∃ x, i = .bcd x ∨ i = .stm x) ∧
    (t.stack ≠ s.stack → ∃ nnn, i = .call nnn) ∧
    (t.sp ≠ s.sp → i = .ret ∨ ∃ nnn, i = .call nnn) ∧
    (t.fb ≠ s.fb → i = .cls ∨ ∃ x y n, i = .drw x y n) ∧
    (t.redraw ≠ s.redraw → (i = .cls ∨ ∃ x y n, i = .drw x y n) ∧ t.redraw = true) ∧
    (t.DT ≠ s.DT → ∃ x, i = .sdt x) ∧
    (t.ST ≠ s.ST → ∃ x, i = .sst x) ∧
    (t.I ≠ s.I → (∃ nnn, i = .lda nnn) ∨ ∃ x, i = .adda x ∨ i = .fnt x ∨ i = .stm x ∨ i = .ldm x) ∧
    t.key = s.key

/-- `ST` and `redraw` are read by no instruction (R28, R30): a STEP from two states that differ only there
does the same to everything else. -/
def Obligations.SoundTimerAndRedrawAreNotRead : Prop :=
  ∀ (s t : State) (a : Byte) (b : Bool), step s = .next t →
    ∃ u, step { s with ST := a, redraw := b } = .next u ∧
      { u with ST := t.ST, redraw := t.redraw } = t ∧
      stepOutcome { s with ST := a, redraw := b } = stepOutcome s ∧
      stepDiag { s with ST := a, redraw := b } = stepDiag s

/-! ## Diagnostics and outcomes -/

/-- A STEP's `diag` holds at most one code (R175; decision D29). -/
def Obligations.AtMostOneDiagnosticPerStep : Prop :=
  ∀ s : State, (stepDiag s).length ≤ 1

/-- The table of R171: an outcome other than `OK` means the STEP changed nothing; `UNKNOWN` and `FETCH_OOB`
come with their own code alone, `WAIT_KEY` with none, and `OK` with none of those two codes (decision D19). -/
def Obligations.OutcomeOtherThanOkMeansNoChange : Prop :=
  ∀ s : State,
    (stepOutcome s ≠ .ok → step s = .next s) ∧
    (stepOutcome s = .waitKey → stepDiag s = [] ∧ ∀ k : Fin 16, s.key[k] = false) ∧
    (stepOutcome s = .unknown ↔ Diag.unknownOpcode ∈ stepDiag s) ∧
    (stepOutcome s = .fetchOob ↔ Diag.fetchOutOfBounds ∈ stepDiag s)

/-- The states R193 names as candidates for the end of a run are fixed points: no number of STEPs changes
them. The end of a run itself stays open (decision D23, log entry 8). -/
def Obligations.TerminalStatesNeverChange : Prop :=
  ∀ (s : State) (n : Nat), s.terminal = true → core.run n s = .next s

/-! ## Invariants -/

/-- Every state a RESET leaves satisfies the invariant of R37. -/
def Obligations.ResetSatisfiesTheInvariant : Prop :=
  ∀ (rom : List Byte) (t : State), resetWith rom = .next t → t.Inv

/-- The invariant of R37 (an inference of the spec, which rests on decision D11) is kept by every STEP, from
every state that satisfies it: memory stays in canonical form within 0 to 0xFFF, `pc` stays in 0 to 0x10FE and
every stack entry in 0 to 0xFFE. -/
def Obligations.StepKeepsTheInvariant : Prop :=
  ∀ s t : State, s.Inv → step s = .next t → t.Inv

/-- R37: the invariant holds in every state reachable by any sequence of events, in any order. -/
def Obligations.EveryReachableStateSatisfiesTheInvariant : Prop :=
  ∀ (es : List Event) (t : State), runEvents none es = some t → t.Inv
end

