-- ==== Sys2Proof/Laws/Decode.lean ====
section
/-! SUPPORT. Words and their fields as numbers: what the decoder reads back from a word built of fields is
what the encoder put in, and a word is determined by its fields. -/

namespace Sys2Proof

/-! ### Fields as quotients and remainders (R73) -/

theorem toNat_fieldCls (op : Word) : (fieldCls op).toNat = op.toNat / 4096 := by
  simp [fieldCls, Nat.shiftRight_eq_div_pow]; omega

theorem toNat_fieldX (op : Word) : (fieldX op).toNat = op.toNat / 256 % 16 := by
  simp [fieldX, Nat.shiftRight_eq_div_pow]

theorem toNat_fieldY (op : Word) : (fieldY op).toNat = op.toNat / 16 % 16 := by
  simp [fieldY, Nat.shiftRight_eq_div_pow]

theorem toNat_fieldN (op : Word) : (fieldN op).toNat = op.toNat % 16 := by simp [fieldN]

theorem toNat_fieldNN (op : Word) : (fieldNN op).toNat = op.toNat % 256 := by simp [fieldNN]

theorem toNat_fieldNNN (op : Word) : (fieldNNN op).toNat = op.toNat % 4096 := by simp [fieldNNN]

theorem toNat_firstByte (op : Word) : (firstByte op).toNat = op.toNat / 256 := by
  simp [firstByte, Nat.shiftRight_eq_div_pow]; omega

theorem toNat_secondByte (op : Word) : (secondByte op).toNat = op.toNat % 256 := by simp [secondByte]

/-! ### Words built of fields -/

/-- Appending is multiplying and adding. -/
theorem toNat_append {w v : Nat} (a : BitVec w) (b : BitVec v) :
    (a ++ b).toNat = a.toNat * 2 ^ v + b.toNat := by
  rw [BitVec.toNat_append, ← Nat.shiftLeft_add_eq_or_of_lt b.isLt, Nat.shiftLeft_eq]

/-- Big-endian: the byte at the lower address is the high one (R53). -/
theorem toNat_wordOfBytes (a b : Byte) : (wordOfBytes a b).toNat = a.toNat * 256 + b.toNat :=
  toNat_append a b

theorem toNat_wordNNN (c : Nibble) (nnn : Addr12) :
    (wordNNN c nnn).toNat = c.toNat * 4096 + nnn.toNat :=
  toNat_append c nnn

theorem toNat_wordXNN (c x : Nibble) (nn : Byte) :
    (wordXNN c x nn).toNat = c.toNat * 4096 + x.toNat * 256 + nn.toNat := by
  have h : (c ++ x ++ nn).toNat = (c.toNat * 2 ^ 4 + x.toNat) * 2 ^ 8 + nn.toNat := by
    rw [toNat_append, toNat_append]
  refine h.trans ?_
  omega

theorem toNat_wordXYN (c x y n : Nibble) :
    (wordXYN c x y n).toNat = c.toNat * 4096 + x.toNat * 256 + y.toNat * 16 + n.toNat := by
  have h : (c ++ x ++ y ++ n).toNat =
      ((c.toNat * 2 ^ 4 + x.toNat) * 2 ^ 4 + y.toNat) * 2 ^ 4 + n.toNat := by
    rw [toNat_append, toNat_append, toNat_append]
  refine h.trans ?_
  omega

/-! ### Fields of words built of fields -/

section
variable (c x y n : Nibble) (nn : Byte) (nnn : Addr12) (a b : Byte)

@[simp] theorem fieldCls_wordXYN : fieldCls (wordXYN c x y n) = c := by
  apply BitVec.eq_of_toNat_eq; rw [toNat_fieldCls, toNat_wordXYN]; omega
@[simp] theorem fieldX_wordXYN : fieldX (wordXYN c x y n) = x := by
  apply BitVec.eq_of_toNat_eq; rw [toNat_fieldX, toNat_wordXYN]; omega
@[simp] theorem fieldY_wordXYN : fieldY (wordXYN c x y n) = y := by
  apply BitVec.eq_of_toNat_eq; rw [toNat_fieldY, toNat_wordXYN]; omega
@[simp] theorem fieldN_wordXYN : fieldN (wordXYN c x y n) = n := by
  apply BitVec.eq_of_toNat_eq; rw [toNat_fieldN, toNat_wordXYN]; omega
@[simp] theorem fieldCls_wordXNN : fieldCls (wordXNN c x nn) = c := by
  apply BitVec.eq_of_toNat_eq; rw [toNat_fieldCls, toNat_wordXNN]; omega
@[simp] theorem fieldX_wordXNN : fieldX (wordXNN c x nn) = x := by
  apply BitVec.eq_of_toNat_eq; rw [toNat_fieldX, toNat_wordXNN]; omega
@[simp] theorem fieldNN_wordXNN : fieldNN (wordXNN c x nn) = nn := by
  apply BitVec.eq_of_toNat_eq; rw [toNat_fieldNN, toNat_wordXNN]; omega
@[simp] theorem fieldCls_wordNNN : fieldCls (wordNNN c nnn) = c := by
  apply BitVec.eq_of_toNat_eq; rw [toNat_fieldCls, toNat_wordNNN]; omega
@[simp] theorem fieldNNN_wordNNN : fieldNNN (wordNNN c nnn) = nnn := by
  apply BitVec.eq_of_toNat_eq; rw [toNat_fieldNNN, toNat_wordNNN]; omega
@[simp] theorem firstByte_wordOfBytes : firstByte (wordOfBytes a b) = a := by
  apply BitVec.eq_of_toNat_eq; rw [toNat_firstByte, toNat_wordOfBytes]; omega
@[simp] theorem secondByte_wordOfBytes : secondByte (wordOfBytes a b) = b := by
  apply BitVec.eq_of_toNat_eq; rw [toNat_secondByte, toNat_wordOfBytes]; omega
end

/-! ### A word is determined by its fields -/

@[simp] theorem wordOfBytes_bytes (op : Word) : wordOfBytes (firstByte op) (secondByte op) = op := by
  apply BitVec.eq_of_toNat_eq; rw [toNat_wordOfBytes, toNat_firstByte, toNat_secondByte]; omega
@[simp] theorem wordNNN_fields (op : Word) : wordNNN (fieldCls op) (fieldNNN op) = op := by
  apply BitVec.eq_of_toNat_eq; rw [toNat_wordNNN, toNat_fieldCls, toNat_fieldNNN]; omega
@[simp] theorem wordXNN_fields (op : Word) :
    wordXNN (fieldCls op) (fieldX op) (fieldNN op) = op := by
  apply BitVec.eq_of_toNat_eq
  rw [toNat_wordXNN, toNat_fieldCls, toNat_fieldX, toNat_fieldNN]; omega
@[simp] theorem wordXYN_fields (op : Word) :
    wordXYN (fieldCls op) (fieldX op) (fieldY op) (fieldN op) = op := by
  apply BitVec.eq_of_toNat_eq
  rw [toNat_wordXYN, toNat_fieldCls, toNat_fieldX, toNat_fieldY, toNat_fieldN]; omega

/-! ### Fields under a mask -/

section
variable (op m : Word)

@[simp] theorem fieldCls_and : fieldCls (op &&& m) = fieldCls op &&& fieldCls m :=
  BitVec.extractLsb'_and
@[simp] theorem fieldX_and : fieldX (op &&& m) = fieldX op &&& fieldX m := BitVec.extractLsb'_and
@[simp] theorem fieldY_and : fieldY (op &&& m) = fieldY op &&& fieldY m := BitVec.extractLsb'_and
@[simp] theorem fieldN_and : fieldN (op &&& m) = fieldN op &&& fieldN m := BitVec.extractLsb'_and
@[simp] theorem fieldNN_and : fieldNN (op &&& m) = fieldNN op &&& fieldNN m := BitVec.extractLsb'_and
end

theorem and_F (x : Nibble) : x &&& 15#4 = x := BitVec.and_allOnes
theorem and_FF (b : Byte) : b &&& 255#8 = b := BitVec.and_allOnes

/-- The mask of a class alone. -/
theorem and_class_mask (op : Word) : op &&& 0xF000#16 = wordXNN (fieldCls op) 0 0 := by
  rw [← wordXNN_fields (op &&& 0xF000#16)]
  simp [show fieldCls 0xF000#16 = 0xF#4 by decide, show fieldX 0xF000#16 = 0#4 by decide,
    show fieldNN 0xF000#16 = 0#8 by decide, and_F]

/-- The mask of a class and the selector `N`. -/
theorem and_class_N_mask (op : Word) : op &&& 0xF00F#16 = wordXYN (fieldCls op) 0 0 (fieldN op) := by
  rw [← wordXYN_fields (op &&& 0xF00F#16)]
  simp [show fieldCls 0xF00F#16 = 0xF#4 by decide, show fieldX 0xF00F#16 = 0#4 by decide,
    show fieldY 0xF00F#16 = 0#4 by decide, show fieldN 0xF00F#16 = 0xF#4 by decide, and_F]

/-- The mask of a class and the selector `NN`. -/
theorem and_class_NN_mask (op : Word) : op &&& 0xF0FF#16 = wordXNN (fieldCls op) 0 (fieldNN op) := by
  rw [← wordXNN_fields (op &&& 0xF0FF#16)]
  simp [show fieldCls 0xF0FF#16 = 0xF#4 by decide, show fieldX 0xF0FF#16 = 0#4 by decide,
    show fieldNN 0xF0FF#16 = 0xFF#8 by decide, and_F, and_FF]

end Sys2Proof
end

