-- ==== Sys2Proof/Laws/Display.lean ====
section
/-! SUPPORT. What plotting pixels does: a list of distinct pixels is toggled, and the collision says
whether one of them was on; and that the pixels of one sprite are distinct. -/

namespace Sys2Proof.Machine

/-- A pixel of the screen, row first. -/
abbrev Pixel := Fin 32 × Fin 64

/-- A toggle changes its own pixel and no other. -/
theorem pixel_toggle (fb : Framebuffer) (py y : Fin 32) (px x : Fin 64) :
    Framebuffer.pixel (Framebuffer.toggle fb py px) y x =
      if (y, x) = (py, px) then ! Framebuffer.pixel fb y x else Framebuffer.pixel fb y x := by
  by_cases hy : y = py
  · subst hy
    by_cases hx : x = px
    · subst hx; simp [Framebuffer.pixel, Framebuffer.toggle]
    · have hx' : px.val ≠ x.val := fun e => hx (Fin.ext e.symm)
      simp [Framebuffer.pixel, Framebuffer.toggle, hx, Vector.getElem_set_ne, hx']
  · have hy' : py.val ≠ y.val := fun e => hy (Fin.ext e.symm)
    simp [Framebuffer.pixel, Framebuffer.toggle, hy, Vector.getElem_set_ne, hy']

@[simp] theorem pixel_blankScreen (y : Fin 32) (x : Fin 64) :
    Framebuffer.pixel blankScreen y x = false := by
  simp [Framebuffer.pixel, blankScreen]

/-- Plot a list of pixels one after another. -/
def plotAll (d : Drawing) (ps : List Pixel) : Drawing := ps.foldl (fun d p => plot d p.1 p.2) d

/-- Plotting distinct pixels toggles exactly those pixels. -/
theorem pixel_plotAll (d : Drawing) (ps : List Pixel) (h : ps.Nodup) (y : Fin 32) (x : Fin 64) :
    Framebuffer.pixel (plotAll d ps).1 y x =
      if (y, x) ∈ ps then ! Framebuffer.pixel d.1 y x else Framebuffer.pixel d.1 y x := by
  induction ps generalizing d with
  | nil => simp [plotAll]
  | cons p ps ih =>
    obtain ⟨hp, hn⟩ := List.nodup_cons.1 h
    have e : plotAll d (p :: ps) = plotAll (plot d p.1 p.2) ps := rfl
    rw [e, ih _ hn]
    simp only [plot, pixel_toggle, List.mem_cons]
    by_cases hyx : (y, x) = p
    · subst hyx; simp [hp]
    · simp [hyx]

/-- Plotting distinct pixels collides exactly when one of them was on. -/
theorem collision_plotAll (d : Drawing) (ps : List Pixel) (h : ps.Nodup) :
    (plotAll d ps).2 = true ↔ d.2 = true ∨ ∃ p ∈ ps, Framebuffer.pixel d.1 p.1 p.2 = true := by
  induction ps generalizing d with
  | nil => simp [plotAll]
  | cons p ps ih =>
    obtain ⟨hp, hn⟩ := List.nodup_cons.1 h
    have e : plotAll d (p :: ps) = plotAll (plot d p.1 p.2) ps := rfl
    rw [e, ih _ hn]
    have hne : ∀ q ∈ ps, (q.1, q.2) ≠ (p.1, p.2) := fun q hq he => hp ((show q = p from he) ▸ hq)
    simp only [plot, Bool.or_eq_true, List.mem_cons, exists_eq_or_imp, or_assoc]
    refine or_congr_right (or_congr_right ?_)
    constructor
    · rintro ⟨q, hq, h⟩
      rw [pixel_toggle, if_neg (hne q hq)] at h
      exact ⟨q, hq, h⟩
    · rintro ⟨q, hq, h⟩
      refine ⟨q, hq, ?_⟩
      rw [pixel_toggle, if_neg (hne q hq)]
      exact h

/-! ### The pixels of a sprite -/

/-- The pixels under the 1 bits of one sprite row. -/
def rowPixels (b : Byte) (py : Fin 32) (x0 : Byte) : List Pixel :=
  ((List.range 8).filter (spriteBit b)).map fun c => (py, spriteCol x0 c)

/-- The pixels under the 1 bits of the in-range rows of a sprite. -/
def spritePixels (m : Memory) (base : Nat) (x0 y0 : Byte) (n : Nat) : List Pixel :=
  (List.range n).flatMap fun r =>
    match m.read? (base + r) with
    | some b => rowPixels b (spriteRow y0 r) x0
    | none => []

theorem drawRow_eq (b : Byte) (py : Fin 32) (x0 : Byte) (d : Drawing) :
    drawRow b py x0 d = plotAll d (rowPixels b py x0) := by
  simp only [drawRow, rowPixels, plotAll, List.foldl_map, List.foldl_filter]
  rfl

/-- Drawing a sprite is plotting its pixels. -/
theorem drawSprite_eq (m : Memory) (base : Nat) (x0 y0 : Byte) (n : Nat) (fb : Framebuffer) :
    drawSprite m base x0 y0 n fb = plotAll (fb, false) (spritePixels m base x0 y0 n) := by
  simp only [drawSprite, spritePixels, plotAll, List.foldl_flatMap]
  congr 1
  funext d r
  unfold drawSpriteRow
  cases m.read? (base + r) with
  | some b => exact drawRow_eq _ _ _ _
  | none => rfl

/-- Columns less than 64 apart are distinct. -/
theorem spriteCol_inj (x0 : Byte) {c c' : Nat} (h : c < 8) (h' : c' < 8)
    (e : spriteCol x0 c = spriteCol x0 c') : c = c' := by
  simp only [spriteCol, Fin.mk.injEq] at e; omega

/-- Rows less than 32 apart are distinct. -/
theorem spriteRow_inj (y0 : Byte) {r r' : Nat} (h : r < 32) (h' : r' < 32)
    (e : spriteRow y0 r = spriteRow y0 r') : r = r' := by
  simp only [spriteRow, Fin.mk.injEq] at e; omega

theorem mem_rowPixels (b : Byte) (py : Fin 32) (x0 : Byte) (p : Pixel) :
    p ∈ rowPixels b py x0 ↔ ∃ c, c < 8 ∧ spriteBit b c = true ∧ p = (py, spriteCol x0 c) := by
  simp only [rowPixels, List.mem_map, List.mem_filter, List.mem_range]
  constructor
  · rintro ⟨c, ⟨h1, h2⟩, rfl⟩; exact ⟨c, h1, h2, rfl⟩
  · rintro ⟨c, h1, h2, rfl⟩; exact ⟨c, ⟨h1, h2⟩, rfl⟩

theorem rowPixels_nodup (b : Byte) (py : Fin 32) (x0 : Byte) : (rowPixels b py x0).Nodup := by
  unfold rowPixels
  refine List.Nodup.map_on ?_ (List.Nodup.filter _ List.nodup_range)
  intro c hc c' hc' e
  simp only [List.mem_filter, List.mem_range] at hc hc'
  exact spriteCol_inj x0 hc.1 hc'.1 (Prod.mk.inj e).2

/-- Which pixels a sprite touches. -/
theorem mem_spritePixels (m : Memory) (base : Nat) (x0 y0 : Byte) (n : Nat) (p : Pixel) :
    p ∈ spritePixels m base x0 y0 n ↔
      ∃ r c, r < n ∧ c < 8 ∧ InMemory (base + r) ∧ spriteBit (m.read (base + r)) c = true ∧
        p = (spriteRow y0 r, spriteCol x0 c) := by
  simp only [spritePixels, List.mem_flatMap, List.mem_range]
  constructor
  · rintro ⟨r, hr, hp⟩
    by_cases hm : InMemory (base + r)
    · simp only [Memory.read?, hm, if_true] at hp
      obtain ⟨c, hc, hb, rfl⟩ := (mem_rowPixels _ _ _ _).1 hp
      exact ⟨r, c, hr, hc, hm, hb, rfl⟩
    · simp [Memory.read?, hm] at hp
  · rintro ⟨r, c, hr, hc, hm, hb, rfl⟩
    refine ⟨r, hr, ?_⟩
    simp only [Memory.read?, hm, if_true]
    exact (mem_rowPixels _ _ _ _).2 ⟨c, hc, hb, rfl⟩

/-- No pixel of a sprite is visited twice (R153). -/
theorem spritePixels_nodup (m : Memory) (base : Nat) (x0 y0 : Byte) (n : Nat) (h : n ≤ 32) :
    (spritePixels m base x0 y0 n).Nodup := by
  have hrow : ∀ (r : Nat) (p : Pixel), p ∈ (match m.read? (base + r) with
      | some b => rowPixels b (spriteRow y0 r) x0
      | none => []) → p.1 = spriteRow y0 r := by
    intro r p hp
    split at hp
    · obtain ⟨c, -, -, rfl⟩ := (mem_rowPixels _ _ _ _).1 hp; rfl
    · simp at hp
  unfold spritePixels
  rw [List.nodup_flatMap]
  refine ⟨fun r _ => ?_, ?_⟩
  · split
    · exact rowPixels_nodup _ _ _
    · exact List.nodup_nil
  · refine List.Pairwise.imp_of_mem ?_ (List.nodup_range (n := n))
    intro r r' hr hr' hne
    simp only [List.mem_range] at hr hr'
    intro p hp hp'
    exact hne (spriteRow_inj y0 (by omega) (by omega) ((hrow r p hp).symm.trans (hrow r' p hp')))

end Sys2Proof.Machine
end

