-- ==== Sys2Proof/Laws/Memory.lean ====
section
/-! SUPPORT. The laws of memory: read after write, and every operation keeps the canonical form. -/

namespace Sys2Proof.Machine

/-! ### Read after an update -/

theorem Memory.read_erase (m : Memory) (a c : Nat) :
    (m.erase a).read c = if c = a then resetByte c else m.read c := by
  induction m with
  | nil => simp [Memory.erase, Memory.read]
  | cons p rest ih =>
    obtain ⟨k, b⟩ := p
    by_cases hk : k = a
    · subst hk
      by_cases hc : c = k
      · subst hc; simpa [Memory.erase] using ih
      · simp [Memory.erase, Memory.read, ih, hc, Ne.symm hc]
    · by_cases hkc : k = c
      · subst hkc; simp [Memory.erase, Memory.read, hk]
      · simp [Memory.erase, Memory.read, hk, hkc, ih]

theorem Memory.read_insert (m : Memory) (a : Nat) (b : Byte) (c : Nat) :
    (m.insert a b).read c = if c = a then b else m.read c := by
  induction m with
  | nil => simp [Memory.insert, Memory.read, eq_comm]
  | cons p rest ih =>
    obtain ⟨k, d⟩ := p
    unfold Memory.insert
    split
    · simp [Memory.read, eq_comm]
    · split
      · subst_vars; by_cases hc : c = k <;> simp [Memory.read, hc, eq_comm]
      · by_cases hkc : k = c
        · subst hkc; simp [Memory.read, *]
        · simp [Memory.read, hkc, ih]

/-- What a byte reads as after a checked store: the stored byte at its own address if that is in memory,
everything else as before. -/
theorem Memory.read_write (m : Memory) (a : Nat) (b : Byte) (c : Nat) :
    (m.write a b).read c = if c = a ∧ InMemory a then b else m.read c := by
  unfold Memory.write
  split
  · split
    · rw [Memory.read_erase]
      split
      · simp [*]
      · simp [*]
    · rw [Memory.read_insert]; simp [*]
  · simp [*]

@[simp] theorem Memory.read_write_same (m : Memory) {a : Nat} (b : Byte) (h : InMemory a) :
    (m.write a b).read a = b := by
  simp [Memory.read_write, h]

theorem Memory.read_write_other (m : Memory) {a c : Nat} (b : Byte) (h : c ≠ a) :
    (m.write a b).read c = m.read c := by
  simp [Memory.read_write, h]

/-- A multi-byte store leaves every byte outside its range alone. -/
theorem Memory.read_writeBytes_outside (m : Memory) (a : Nat) (bs : List Byte) (c : Nat)
    (h : c < a ∨ a + bs.length ≤ c) : (m.writeBytes a bs).read c = m.read c := by
  induction bs generalizing m a with
  | nil => rfl
  | cons b bs ih =>
    have hl : (b :: bs).length = bs.length + 1 := List.length_cons
    rw [Memory.writeBytes, ih _ _ (by omega), Memory.read_write_other]
    omega

/-- A multi-byte store puts byte `k` at `a + k` when that address is in memory. -/
theorem Memory.read_writeBytes_inside (m : Memory) (a : Nat) (bs : List Byte) (k : Nat)
    (hk : k < bs.length) (hm : InMemory (a + k)) : (m.writeBytes a bs).read (a + k) = bs[k] := by
  induction bs generalizing m a k with
  | nil => simp at hk
  | cons b bs ih =>
    rw [Memory.writeBytes]
    cases k with
    | zero =>
      rw [Memory.read_writeBytes_outside _ _ _ _ (by omega)]
      exact Memory.read_write_same _ _ hm
    | succ k =>
      have e : a + (k + 1) = a + 1 + k := by omega
      rw [e] at hm ⊢
      simpa using ih _ _ k (by simpa using hk) hm

/-- A multi-byte store never changes an address that is not in memory. -/
theorem Memory.read_writeBytes_notInMemory (m : Memory) (a : Nat) (bs : List Byte) (c : Nat)
    (h : ¬ InMemory c) : (m.writeBytes a bs).read c = m.read c := by
  induction bs generalizing m a with
  | nil => rfl
  | cons b bs ih =>
    rw [Memory.writeBytes, ih, Memory.read_write]
    split
    · rename_i hc; exact absurd (hc.1 ▸ hc.2) h
    · rfl

/-! ### The canonical form -/

theorem Memory.mem_erase {m : Memory} {a : Nat} {p : Host.Cell} (h : p ∈ m.erase a) : p ∈ m := by
  induction m with
  | nil => simp [Memory.erase] at h
  | cons q rest ih =>
    obtain ⟨k, b⟩ := q
    unfold Memory.erase at h
    split at h
    · exact List.mem_cons_of_mem _ (ih h)
    · rcases List.mem_cons.1 h with rfl | h
      · exact List.mem_cons_self
      · exact List.mem_cons_of_mem _ (ih h)

theorem Memory.erase_pairwise {m : Memory} (a : Nat) (h : m.Pairwise fun p q => p.1 < q.1) :
    (m.erase a).Pairwise fun p q => p.1 < q.1 := by
  induction m with
  | nil => simp [Memory.erase]
  | cons q rest ih =>
    obtain ⟨k, b⟩ := q
    obtain ⟨hq, hr⟩ := List.pairwise_cons.1 h
    unfold Memory.erase
    split
    · exact ih hr
    · exact List.pairwise_cons.2 ⟨fun p hp => hq p (Memory.mem_erase hp), ih hr⟩

theorem Memory.mem_insert {m : Memory} {a : Nat} {b : Byte} {p : Host.Cell} (h : p ∈ m.insert a b) :
    p = (a, b) ∨ p ∈ m := by
  induction m with
  | nil => simpa [Memory.insert] using h
  | cons q rest ih =>
    obtain ⟨k, c⟩ := q
    unfold Memory.insert at h
    split at h
    · simpa using h
    · split at h
      · rcases List.mem_cons.1 h with h | h
        · exact .inl h
        · exact .inr (List.mem_cons_of_mem _ h)
      · rcases List.mem_cons.1 h with rfl | h
        · exact .inr List.mem_cons_self
        · exact (ih h).imp_right (List.mem_cons_of_mem _)

theorem Memory.insert_pairwise {m : Memory} (a : Nat) (b : Byte) (h : m.Pairwise fun p q => p.1 < q.1) :
    (m.insert a b).Pairwise fun p q => p.1 < q.1 := by
  induction m with
  | nil => simp [Memory.insert]
  | cons q rest ih =>
    obtain ⟨k, c⟩ := q
    obtain ⟨hq, hr⟩ := List.pairwise_cons.1 h
    unfold Memory.insert
    split
    · rename_i hak
      refine List.pairwise_cons.2 ⟨fun p hp => ?_, h⟩
      rcases List.mem_cons.1 hp with rfl | hp
      · exact hak
      · exact Nat.lt_trans hak (hq p hp)
    · split
      · rename_i hka; subst hka
        exact List.pairwise_cons.2 ⟨hq, hr⟩
      · refine List.pairwise_cons.2 ⟨fun p hp => ?_, ih hr⟩
        rcases Memory.mem_insert hp with rfl | hp
        · simp only; omega
        · exact hq p hp

/-- A checked store keeps the canonical form. -/
theorem Memory.write_wf {m : Memory} (a : Nat) (b : Byte) (h : m.wf) : (m.write a b).wf := by
  unfold Memory.write
  split
  · rename_i ha
    split
    · exact ⟨Memory.erase_pairwise a h.1, fun p hp => h.2 p (Memory.mem_erase hp)⟩
    · rename_i hb
      refine ⟨Memory.insert_pairwise a b h.1, fun p hp => ?_⟩
      rcases Memory.mem_insert hp with rfl | hp
      · exact ⟨ha, hb⟩
      · exact h.2 p hp
  · exact h

/-- A multi-byte store keeps the canonical form. -/
theorem Memory.writeBytes_wf {m : Memory} (a : Nat) (bs : List Byte) (h : m.wf) :
    (m.writeBytes a bs).wf := by
  induction bs generalizing m a with
  | nil => exact h
  | cons b bs ih => exact ih _ (Memory.write_wf a b h)

/-- Memory right after reset is in canonical form. -/
theorem Memory.reset_wf : State.reset.mem.wf := by decide

/-! ### The checked load -/

@[simp] theorem Memory.read?_inMemory (m : Memory) {a : Nat} (h : InMemory a) :
    m.read? a = some (m.read a) := by
  simp [Memory.read?, h]

@[simp] theorem Memory.read?_outside (m : Memory) {a : Nat} (h : ¬ InMemory a) : m.read? a = none := by
  simp [Memory.read?, h]

end Sys2Proof.Machine
end

