-- ==== Sys2Proof/Laws/State.lean ====
section
/-! SUPPORT. One lemma per field per update of the state, so that no later proof unfolds a record update. -/

namespace Sys2Proof.Machine

variable (s : State)

/-! `setReg` -/

@[simp] theorem setReg_mem (x : Nibble) (b : Byte) : (s.setReg x b).mem = s.mem := rfl
@[simp] theorem setReg_I (x : Nibble) (b : Byte) : (s.setReg x b).I = s.I := rfl
@[simp] theorem setReg_pc (x : Nibble) (b : Byte) : (s.setReg x b).pc = s.pc := rfl
@[simp] theorem setReg_stack (x : Nibble) (b : Byte) : (s.setReg x b).stack = s.stack := rfl
@[simp] theorem setReg_sp (x : Nibble) (b : Byte) : (s.setReg x b).sp = s.sp := rfl
@[simp] theorem setReg_DT (x : Nibble) (b : Byte) : (s.setReg x b).DT = s.DT := rfl
@[simp] theorem setReg_ST (x : Nibble) (b : Byte) : (s.setReg x b).ST = s.ST := rfl
@[simp] theorem setReg_fb (x : Nibble) (b : Byte) : (s.setReg x b).fb = s.fb := rfl
@[simp] theorem setReg_redraw (x : Nibble) (b : Byte) : (s.setReg x b).redraw = s.redraw := rfl
@[simp] theorem setReg_key (x : Nibble) (b : Byte) : (s.setReg x b).key = s.key := rfl
@[simp] theorem setReg_draws (x : Nibble) (b : Byte) : (s.setReg x b).draws = s.draws := rfl

/-! `advance` -/

@[simp] theorem advance_mem : s.advance.mem = s.mem := rfl
@[simp] theorem advance_v : s.advance.v = s.v := rfl
@[simp] theorem advance_I : s.advance.I = s.I := rfl
@[simp] theorem advance_pc : s.advance.pc = s.pc + 2#16 := rfl
@[simp] theorem advance_stack : s.advance.stack = s.stack := rfl
@[simp] theorem advance_sp : s.advance.sp = s.sp := rfl
@[simp] theorem advance_DT : s.advance.DT = s.DT := rfl
@[simp] theorem advance_ST : s.advance.ST = s.ST := rfl
@[simp] theorem advance_fb : s.advance.fb = s.fb := rfl
@[simp] theorem advance_redraw : s.advance.redraw = s.redraw := rfl
@[simp] theorem advance_key : s.advance.key = s.key := rfl
@[simp] theorem advance_draws : s.advance.draws = s.draws := rfl

/-! `skip` -/

@[simp] theorem skip_mem : s.skip.mem = s.mem := rfl
@[simp] theorem skip_v : s.skip.v = s.v := rfl
@[simp] theorem skip_I : s.skip.I = s.I := rfl
@[simp] theorem skip_pc : s.skip.pc = s.pc + 4#16 := rfl
@[simp] theorem skip_stack : s.skip.stack = s.stack := rfl
@[simp] theorem skip_sp : s.skip.sp = s.sp := rfl
@[simp] theorem skip_DT : s.skip.DT = s.DT := rfl
@[simp] theorem skip_ST : s.skip.ST = s.ST := rfl
@[simp] theorem skip_fb : s.skip.fb = s.fb := rfl
@[simp] theorem skip_redraw : s.skip.redraw = s.redraw := rfl
@[simp] theorem skip_key : s.skip.key = s.key := rfl
@[simp] theorem skip_draws : s.skip.draws = s.draws := rfl

/-! `skipIf` -/

@[simp] theorem skipIf_mem (c : Bool) : (s.skipIf c).mem = s.mem := by cases c <;> rfl
@[simp] theorem skipIf_v (c : Bool) : (s.skipIf c).v = s.v := by cases c <;> rfl
@[simp] theorem skipIf_I (c : Bool) : (s.skipIf c).I = s.I := by cases c <;> rfl
@[simp] theorem skipIf_pc (c : Bool) : (s.skipIf c).pc = s.pc + (if c then 4#16 else 2#16) := by cases c <;> rfl
@[simp] theorem skipIf_stack (c : Bool) : (s.skipIf c).stack = s.stack := by cases c <;> rfl
@[simp] theorem skipIf_sp (c : Bool) : (s.skipIf c).sp = s.sp := by cases c <;> rfl
@[simp] theorem skipIf_DT (c : Bool) : (s.skipIf c).DT = s.DT := by cases c <;> rfl
@[simp] theorem skipIf_ST (c : Bool) : (s.skipIf c).ST = s.ST := by cases c <;> rfl
@[simp] theorem skipIf_fb (c : Bool) : (s.skipIf c).fb = s.fb := by cases c <;> rfl
@[simp] theorem skipIf_redraw (c : Bool) : (s.skipIf c).redraw = s.redraw := by cases c <;> rfl
@[simp] theorem skipIf_key (c : Bool) : (s.skipIf c).key = s.key := by cases c <;> rfl
@[simp] theorem skipIf_draws (c : Bool) : (s.skipIf c).draws = s.draws := by cases c <;> rfl

/-! `jump` -/

@[simp] theorem jump_mem (e : Word) : (s.jump e).mem = s.mem := rfl
@[simp] theorem jump_v (e : Word) : (s.jump e).v = s.v := rfl
@[simp] theorem jump_I (e : Word) : (s.jump e).I = s.I := rfl
@[simp] theorem jump_pc (e : Word) : (s.jump e).pc = e := rfl
@[simp] theorem jump_stack (e : Word) : (s.jump e).stack = s.stack := rfl
@[simp] theorem jump_sp (e : Word) : (s.jump e).sp = s.sp := rfl
@[simp] theorem jump_DT (e : Word) : (s.jump e).DT = s.DT := rfl
@[simp] theorem jump_ST (e : Word) : (s.jump e).ST = s.ST := rfl
@[simp] theorem jump_fb (e : Word) : (s.jump e).fb = s.fb := rfl
@[simp] theorem jump_redraw (e : Word) : (s.jump e).redraw = s.redraw := rfl
@[simp] theorem jump_key (e : Word) : (s.jump e).key = s.key := rfl
@[simp] theorem jump_draws (e : Word) : (s.jump e).draws = s.draws := rfl

/-! `push` -/

@[simp] theorem push_mem (e : Word) : (s.push e).mem = s.mem := by unfold State.push; split <;> rfl
@[simp] theorem push_v (e : Word) : (s.push e).v = s.v := by unfold State.push; split <;> rfl
@[simp] theorem push_I (e : Word) : (s.push e).I = s.I := by unfold State.push; split <;> rfl
@[simp] theorem push_pc (e : Word) : (s.push e).pc = s.pc := by unfold State.push; split <;> rfl
@[simp] theorem push_DT (e : Word) : (s.push e).DT = s.DT := by unfold State.push; split <;> rfl
@[simp] theorem push_ST (e : Word) : (s.push e).ST = s.ST := by unfold State.push; split <;> rfl
@[simp] theorem push_fb (e : Word) : (s.push e).fb = s.fb := by unfold State.push; split <;> rfl
@[simp] theorem push_redraw (e : Word) : (s.push e).redraw = s.redraw := by unfold State.push; split <;> rfl
@[simp] theorem push_key (e : Word) : (s.push e).key = s.key := by unfold State.push; split <;> rfl
@[simp] theorem push_draws (e : Word) : (s.push e).draws = s.draws := by unfold State.push; split <;> rfl

/-! `pop` -/

@[simp] theorem pop_mem : s.pop.mem = s.mem := rfl
@[simp] theorem pop_v : s.pop.v = s.v := rfl
@[simp] theorem pop_I : s.pop.I = s.I := rfl
@[simp] theorem pop_pc : s.pop.pc = s.pc := rfl
@[simp] theorem pop_stack : s.pop.stack = s.stack := rfl
@[simp] theorem pop_DT : s.pop.DT = s.DT := rfl
@[simp] theorem pop_ST : s.pop.ST = s.ST := rfl
@[simp] theorem pop_fb : s.pop.fb = s.fb := rfl
@[simp] theorem pop_redraw : s.pop.redraw = s.redraw := rfl
@[simp] theorem pop_key : s.pop.key = s.key := rfl
@[simp] theorem pop_draws : s.pop.draws = s.draws := rfl

/-! `storeBytes` -/

@[simp] theorem storeBytes_mem (bs : List Byte) : (s.storeBytes bs).mem = s.mem.writeBytes s.I.toNat bs := rfl
@[simp] theorem storeBytes_v (bs : List Byte) : (s.storeBytes bs).v = s.v := rfl
@[simp] theorem storeBytes_I (bs : List Byte) : (s.storeBytes bs).I = s.I := rfl
@[simp] theorem storeBytes_pc (bs : List Byte) : (s.storeBytes bs).pc = s.pc := rfl
@[simp] theorem storeBytes_stack (bs : List Byte) : (s.storeBytes bs).stack = s.stack := rfl
@[simp] theorem storeBytes_sp (bs : List Byte) : (s.storeBytes bs).sp = s.sp := rfl
@[simp] theorem storeBytes_DT (bs : List Byte) : (s.storeBytes bs).DT = s.DT := rfl
@[simp] theorem storeBytes_ST (bs : List Byte) : (s.storeBytes bs).ST = s.ST := rfl
@[simp] theorem storeBytes_fb (bs : List Byte) : (s.storeBytes bs).fb = s.fb := rfl
@[simp] theorem storeBytes_redraw (bs : List Byte) : (s.storeBytes bs).redraw = s.redraw := rfl
@[simp] theorem storeBytes_key (bs : List Byte) : (s.storeBytes bs).key = s.key := rfl
@[simp] theorem storeBytes_draws (bs : List Byte) : (s.storeBytes bs).draws = s.draws := rfl

/-! `addIndex` -/

@[simp] theorem addIndex_mem (n : Nat) : (s.addIndex n).mem = s.mem := rfl
@[simp] theorem addIndex_v (n : Nat) : (s.addIndex n).v = s.v := rfl
@[simp] theorem addIndex_I (n : Nat) : (s.addIndex n).I = BitVec.ofNat 16 (s.I.toNat + n) := rfl
@[simp] theorem addIndex_pc (n : Nat) : (s.addIndex n).pc = s.pc := rfl
@[simp] theorem addIndex_stack (n : Nat) : (s.addIndex n).stack = s.stack := rfl
@[simp] theorem addIndex_sp (n : Nat) : (s.addIndex n).sp = s.sp := rfl
@[simp] theorem addIndex_DT (n : Nat) : (s.addIndex n).DT = s.DT := rfl
@[simp] theorem addIndex_ST (n : Nat) : (s.addIndex n).ST = s.ST := rfl
@[simp] theorem addIndex_fb (n : Nat) : (s.addIndex n).fb = s.fb := rfl
@[simp] theorem addIndex_redraw (n : Nat) : (s.addIndex n).redraw = s.redraw := rfl
@[simp] theorem addIndex_key (n : Nat) : (s.addIndex n).key = s.key := rfl
@[simp] theorem addIndex_draws (n : Nat) : (s.addIndex n).draws = s.draws := rfl

/-! `countDraw` -/

@[simp] theorem countDraw_mem : s.countDraw.mem = s.mem := rfl
@[simp] theorem countDraw_v : s.countDraw.v = s.v := rfl
@[simp] theorem countDraw_I : s.countDraw.I = s.I := rfl
@[simp] theorem countDraw_pc : s.countDraw.pc = s.pc := rfl
@[simp] theorem countDraw_stack : s.countDraw.stack = s.stack := rfl
@[simp] theorem countDraw_sp : s.countDraw.sp = s.sp := rfl
@[simp] theorem countDraw_DT : s.countDraw.DT = s.DT := rfl
@[simp] theorem countDraw_ST : s.countDraw.ST = s.ST := rfl
@[simp] theorem countDraw_fb : s.countDraw.fb = s.fb := rfl
@[simp] theorem countDraw_redraw : s.countDraw.redraw = s.redraw := rfl
@[simp] theorem countDraw_key : s.countDraw.key = s.key := rfl
@[simp] theorem countDraw_draws : s.countDraw.draws = s.draws + 1 := rfl

/-! `rndWith` -/

@[simp] theorem rndWith_mem (rnd : Byte) (x : Nibble) (nn : Byte) : (rndWith rnd x nn s).mem = s.mem := rfl
@[simp] theorem rndWith_I (rnd : Byte) (x : Nibble) (nn : Byte) : (rndWith rnd x nn s).I = s.I := rfl
@[simp] theorem rndWith_pc (rnd : Byte) (x : Nibble) (nn : Byte) : (rndWith rnd x nn s).pc = s.pc + 2#16 := rfl
@[simp] theorem rndWith_stack (rnd : Byte) (x : Nibble) (nn : Byte) : (rndWith rnd x nn s).stack = s.stack := rfl
@[simp] theorem rndWith_sp (rnd : Byte) (x : Nibble) (nn : Byte) : (rndWith rnd x nn s).sp = s.sp := rfl
@[simp] theorem rndWith_DT (rnd : Byte) (x : Nibble) (nn : Byte) : (rndWith rnd x nn s).DT = s.DT := rfl
@[simp] theorem rndWith_ST (rnd : Byte) (x : Nibble) (nn : Byte) : (rndWith rnd x nn s).ST = s.ST := rfl
@[simp] theorem rndWith_fb (rnd : Byte) (x : Nibble) (nn : Byte) : (rndWith rnd x nn s).fb = s.fb := rfl
@[simp] theorem rndWith_redraw (rnd : Byte) (x : Nibble) (nn : Byte) : (rndWith rnd x nn s).redraw = s.redraw := rfl
@[simp] theorem rndWith_key (rnd : Byte) (x : Nibble) (nn : Byte) : (rndWith rnd x nn s).key = s.key := rfl
@[simp] theorem rndWith_draws (rnd : Byte) (x : Nibble) (nn : Byte) : (rndWith rnd x nn s).draws = s.draws := rfl

/-! `writeResultThenFlag` -/

@[simp] theorem writeResultThenFlag_mem (x : Nibble) (b : Byte) (c : Bool) : (s.writeResultThenFlag x b c).mem = s.mem := rfl
@[simp] theorem writeResultThenFlag_I (x : Nibble) (b : Byte) (c : Bool) : (s.writeResultThenFlag x b c).I = s.I := rfl
@[simp] theorem writeResultThenFlag_pc (x : Nibble) (b : Byte) (c : Bool) : (s.writeResultThenFlag x b c).pc = s.pc := rfl
@[simp] theorem writeResultThenFlag_stack (x : Nibble) (b : Byte) (c : Bool) : (s.writeResultThenFlag x b c).stack = s.stack := rfl
@[simp] theorem writeResultThenFlag_sp (x : Nibble) (b : Byte) (c : Bool) : (s.writeResultThenFlag x b c).sp = s.sp := rfl
@[simp] theorem writeResultThenFlag_DT (x : Nibble) (b : Byte) (c : Bool) : (s.writeResultThenFlag x b c).DT = s.DT := rfl
@[simp] theorem writeResultThenFlag_ST (x : Nibble) (b : Byte) (c : Bool) : (s.writeResultThenFlag x b c).ST = s.ST := rfl
@[simp] theorem writeResultThenFlag_fb (x : Nibble) (b : Byte) (c : Bool) : (s.writeResultThenFlag x b c).fb = s.fb := rfl
@[simp] theorem writeResultThenFlag_redraw (x : Nibble) (b : Byte) (c : Bool) : (s.writeResultThenFlag x b c).redraw = s.redraw := rfl
@[simp] theorem writeResultThenFlag_key (x : Nibble) (b : Byte) (c : Bool) : (s.writeResultThenFlag x b c).key = s.key := rfl
@[simp] theorem writeResultThenFlag_draws (x : Nibble) (b : Byte) (c : Bool) : (s.writeResultThenFlag x b c).draws = s.draws := rfl

end Sys2Proof.Machine
end

