-- ==== Sys2Proof/Laws/Ops.lean ====
section
/-! SUPPORT. What each shared operation of Machine/Ops.lean can do. -/

namespace Sys2Proof.Machine

/-! ### Registers -/

/-- A register after a register write. -/
theorem State.reg_setReg (s : State) (x r : Nibble) (b : Byte) :
    (s.setReg x b).reg r = if r = x then b else s.reg r := by
  simp [State.reg, State.setReg, Vector.getElem_set, BitVec.toNat_inj, eq_comm]

@[simp] theorem State.reg_setReg_same (s : State) (x : Nibble) (b : Byte) : (s.setReg x b).reg x = b := by
  simp [State.reg_setReg]

theorem State.reg_setReg_other (s : State) {x r : Nibble} (b : Byte) (h : r ≠ x) :
    (s.setReg x b).reg r = s.reg r := by
  simp [State.reg_setReg, h]

/-- A register depends on the register file alone. -/
theorem State.reg_congr {s t : State} (h : t.v = s.v) (r : Nibble) : t.reg r = s.reg r := by
  simp only [State.reg, h]

@[simp] theorem reg_advance (s : State) (r : Nibble) : s.advance.reg r = s.reg r := rfl
@[simp] theorem reg_skipIf (s : State) (c : Bool) (r : Nibble) : (s.skipIf c).reg r = s.reg r := by
  cases c <;> rfl
@[simp] theorem reg_jump (s : State) (e : Word) (r : Nibble) : (s.jump e).reg r = s.reg r := rfl
@[simp] theorem reg_push (s : State) (e : Word) (r : Nibble) : (s.push e).reg r = s.reg r :=
  State.reg_congr (push_v s e) r
@[simp] theorem reg_pop (s : State) (r : Nibble) : s.pop.reg r = s.reg r := rfl
@[simp] theorem reg_storeBytes (s : State) (bs : List Byte) (r : Nibble) :
    (s.storeBytes bs).reg r = s.reg r := rfl
@[simp] theorem reg_addIndex (s : State) (n : Nat) (r : Nibble) : (s.addIndex n).reg r = s.reg r := rfl
@[simp] theorem reg_countDraw (s : State) (r : Nibble) : s.countDraw.reg r = s.reg r := rfl

/-! ### Sequencing -/

theorem advance_pc_toNat (s : State) (h : s.pc.toNat ≤ 0xFFE) :
    s.advance.pc.toNat = s.pc.toNat + 2 := by
  simp [BitVec.toNat_add]; omega

theorem skip_pc_toNat (s : State) (h : s.pc.toNat ≤ 0xFFE) : s.skip.pc.toNat = s.pc.toNat + 4 := by
  simp [BitVec.toNat_add]; omega

/-! ### Call stack -/

theorem stackFull_iff (s : State) : s.stackFull = true ↔ s.sp.val = 16 := by
  simp [State.stackFull]

theorem stackEmpty_iff (s : State) : s.stackEmpty = true ↔ s.sp.val = 0 := by
  simp [State.stackEmpty]

/-- A push on a stack with a free entry fills exactly that entry and counts it. -/
theorem push_spec (s : State) (e : Word) (h : s.sp.val < 16) :
    (s.push e).sp.val = s.sp.val + 1 ∧
      ∀ k : Fin 16, (s.push e).stack[k] = if k.val = s.sp.val then e else s.stack[k] := by
  simp [State.push, h, Vector.getElem_set, eq_comm]

/-- A push changes nothing but the stack and its pointer, whether or not there was room. -/
theorem push_stack_bound (s : State) (e : Word) (b : Nat) (he : e.toNat ≤ b)
    (hs : ∀ k : Fin 16, (s.stack[k]).toNat ≤ b) : ∀ k : Fin 16, ((s.push e).stack[k]).toNat ≤ b := by
  intro k
  by_cases h : s.sp.val < 16
  · rw [(push_spec s e h).2 k]; split
    · exact he
    · exact hs k
  · have : s.push e = s := by simp [State.push, h]
    rw [this]; exact hs k

/-- The entry a return uses is the one below the stack pointer. -/
theorem topEntry_eq (s : State) (k : Fin 16) (h : k.val + 1 = s.sp.val) : s.topEntry = s.stack[k] := by
  have hk : s.sp.val - 1 = k.val := by omega
  simp [State.topEntry, ← h]

@[simp] theorem pop_sp_val (s : State) : s.pop.sp.val = s.sp.val - 1 := rfl

theorem topEntry_bound (s : State) (b : Nat) (hs : ∀ k : Fin 16, (s.stack[k]).toNat ≤ b) :
    s.topEntry.toNat ≤ b := by
  by_cases h : 0 < s.sp.val
  · rw [topEntry_eq s ⟨s.sp.val - 1, by omega⟩ (by simp only; omega)]; exact hs _
  · simp [State.topEntry, h]

/-! ### Memory transfers -/

/-- Some byte of the transfer is out of range exactly when its last one is. -/
theorem transferOutOfBounds_iff (s : State) (n : Nat) :
    s.transferOutOfBounds n = true ↔ ∃ k, k < n ∧ 0xFFF < s.ea k := by
  simp [State.transferOutOfBounds]

/-- A transfer through `I` stores byte `k` at `ea k` if that is in memory. -/
theorem storeBytes_inside (s : State) (bs : List Byte) (k : Nat) (hk : k < bs.length)
    (hm : s.ea k ≤ 0xFFF) : (s.storeBytes bs).mem.read (s.ea k) = bs[k] :=
  Memory.read_writeBytes_inside _ _ _ _ hk hm

/-- A transfer through `I` leaves every byte outside its range alone. -/
theorem storeBytes_outside (s : State) (bs : List Byte) (a : Nat)
    (h : ∀ k, k < bs.length → a ≠ s.ea k) : (s.storeBytes bs).mem.read a = s.mem.read a := by
  apply Memory.read_writeBytes_outside
  rcases Nat.lt_or_ge a s.I.toNat with h1 | h1
  · exact .inl h1
  · rcases Nat.lt_or_ge a (s.I.toNat + bs.length) with h2 | h2
    · exact absurd (by simp only [State.ea]; omega) (h (a - s.I.toNat) (by omega))
    · exact .inr h2

/-- A transfer through `I` never changes an address that is not in memory. -/
theorem storeBytes_notInMemory (s : State) (bs : List Byte) (a : Nat) (h : 0xFFF < a) :
    (s.storeBytes bs).mem.read a = s.mem.read a :=
  Memory.read_writeBytes_notInMemory _ _ _ _ (by simp only [InMemory]; omega)

/-- What a load of `n` registers leaves in register `k`. -/
theorem loadRegs_getElem (m : Memory) (base n : Nat) (v : Vector Byte 16) (k : Nat) (hk : k < 16) :
    (loadRegs m base n v)[k] = if k < n ∧ InMemory (base + k) then m.read (base + k) else v[k] := by
  induction n with
  | zero => simp [loadRegs]
  | succ n ih =>
    by_cases hm : InMemory (base + n)
    · rw [loadRegs, Memory.read?_inMemory m hm]
      by_cases hkn : n = k
      · subst hkn; simp [hm]
      · rw [Vector.getElem_setIfInBounds_ne _ hkn, ih]
        have : k < n + 1 ↔ k < n := by omega
        simp only [this]
    · rw [loadRegs, Memory.read?_outside m hm, ih]
      by_cases hkn : n = k
      · subst hkn; simp [hm]
      · have : k < n + 1 ↔ k < n := by omega
        simp only [this]

/-! ### Keypad -/

theorem keyPressed?_of_lt (s : State) (k : Fin 16) : s.keyPressed? k.val = some s.key[k] := by
  simp [State.keyPressed?]

theorem keyPressed?_of_ge (s : State) (k : Nat) (h : 16 ≤ k) : s.keyPressed? k = none := by
  simp [State.keyPressed?, h]

/-- The scan answers the least pressed key. -/
theorem lowestKey?_eq_some (s : State) (k : Nat) :
    s.lowestKey? = some k ↔
      ∃ h : k < 16, s.key[k] = true ∧ ∀ j : Nat, (hj : j < k) → s.key[j] = false := by
  simp [State.lowestKey?, List.findIdx?_eq_some_iff_getElem]

/-- The scan answers nothing exactly when no key is pressed. -/
theorem lowestKey?_eq_none (s : State) :
    s.lowestKey? = none ↔ ∀ k : Fin 16, s.key[k] = false := by
  simp only [State.lowestKey?, List.findIdx?_eq_none_iff]
  constructor
  · intro h k
    have := h (s.key[k]) (by simp)
    simpa using this
  · intro h b hb
    obtain ⟨i, hi, rfl⟩ := List.getElem_of_mem hb
    simpa using h ⟨i, by simpa using hi⟩

/-! ### Fetch -/

theorem fetch?_of_le (s : State) (h : s.pc.toNat ≤ 0xFFE) :
    s.fetch? = some (wordOfBytes (s.mem.read s.pc.toNat) (s.mem.read (s.pc.toNat + 1))) := by
  simp [State.fetch?, h]

theorem fetch?_of_gt (s : State) (h : 0xFFE < s.pc.toNat) : s.fetch? = none := by
  simp [State.fetch?, h]

end Sys2Proof.Machine
end

