-- ==== Sys2Proof/Laws/Flags.lean ====
section
/-! SUPPORT. The flag byte and the write order of the flag-writing instructions (R119). -/

namespace Sys2Proof.Machine

@[simp] theorem flagByte_true : flagByte true = 1 := rfl
@[simp] theorem flagByte_false : flagByte false = 0 := rfl

theorem flagByte_eq_one (c : Bool) : flagByte c = 1 ↔ c = true := by cases c <;> decide

theorem flagByte_toNat (c : Bool) : (flagByte c).toNat = if c then 1 else 0 := by cases c <;> rfl

/-- Every register after a flag-writing instruction: `VF` holds the flag, also when it is the destination;
the destination holds the result otherwise; nothing else changes. -/
theorem reg_writeResultThenFlag (s : State) (x r : Nibble) (b : Byte) (c : Bool) :
    (s.writeResultThenFlag x b c).reg r =
      if r = vf then flagByte c else if r = x then b else s.reg r := by
  simp [State.writeResultThenFlag, State.reg_setReg]

/-- Every register after a `CXNN` with its random byte given. -/
theorem reg_rndWith (rnd : Byte) (x r : Nibble) (nn : Byte) (s : State) :
    (rndWith rnd x nn s).reg r = if r = x then rnd &&& nn else s.reg r :=
  State.reg_setReg s x r (rnd &&& nn)

end Sys2Proof.Machine
end

