-- ==== Sys2Proof/Laws/Operands.lean ====
section
/-! SUPPORT. The operand forms as numbers. -/

namespace Sys2Proof.Machine

@[simp] theorem toNat_zextAddr (nnn : Addr12) : (zextAddr nnn).toNat = nnn.toNat := by
  simp only [zextAddr, BitVec.toNat_setWidth]; omega

@[simp] theorem toNat_jumpSum (nnn : Addr12) (b : Byte) :
    (jumpSum nnn b).toNat = nnn.toNat + b.toNat := by
  simp only [jumpSum, BitVec.toNat_ofNat]; omega

theorem toNat_fontAddr (b : Byte) : (fontAddr b).toNat = (b.toNat * 5 + fx29Base) % 65536 := by
  simp [fontAddr]

@[simp] theorem length_bcdDigits (b : Byte) : (bcdDigits b).length = 3 := rfl

/-- The three digits as numbers. -/
theorem toNat_bcdDigits (b : Byte) :
    (bcdDigits b).map BitVec.toNat = [b.toNat / 100, b.toNat / 10 % 10, b.toNat % 10] := by
  have := b.isLt
  simp only [bcdDigits, List.map_cons, List.map_nil, BitVec.toNat_ofNat]
  congr 1
  · omega
  · congr 1
    · omega
    · congr 1; omega

@[simp] theorem length_lowRegs (s : State) (x : Nibble) : (s.lowRegs x).length = x.toNat + 1 := by
  have := x.isLt
  simp [State.lowRegs, regCount]; omega

/-- Entry `k` of the stored registers is `v[k]`. -/
theorem getElem_lowRegs (s : State) (x : Nibble) (k : Nat) (h : k < (s.lowRegs x).length) :
    (s.lowRegs x)[k] = s.v[k]'(by simp at h; omega) := by
  simp [State.lowRegs]

end Sys2Proof.Machine
end

