-- ==== Sys2Proof/Laws/PerInstr.lean ====
section
/-! SUPPORT. Statements made per instruction. -/

namespace Sys2Proof.Laws.WordMatchesRow

/-- The mask of an instruction's row of table R76. -/
def rowMask : Instr → Word
  | .cls => 0xFFFF
  | .ret => 0xFFFF
  | .sys _ => 0xF000
  | .jp _ => 0xF000
  | .call _ => 0xF000
  | .sei _ _ => 0xF000
  | .snei _ _ => 0xF000
  | .se _ _ => 0xF00F
  | .ldi _ _ => 0xF000
  | .addi _ _ => 0xF000
  | .mov _ _ => 0xF00F
  | .or _ _ => 0xF00F
  | .and _ _ => 0xF00F
  | .xor _ _ => 0xF00F
  | .add _ _ => 0xF00F
  | .sub _ _ => 0xF00F
  | .shr _ _ => 0xF00F
  | .subn _ _ => 0xF00F
  | .shl _ _ => 0xF00F
  | .sne _ _ => 0xF00F
  | .lda _ => 0xF000
  | .jpv0 _ => 0xF000
  | .rnd _ _ => 0xF000
  | .drw _ _ _ => 0xF000
  | .skp _ => 0xF0FF
  | .sknp _ => 0xF0FF
  | .gdt _ => 0xF0FF
  | .key _ => 0xF0FF
  | .sdt _ => 0xF0FF
  | .sst _ => 0xF0FF
  | .adda _ => 0xF0FF
  | .fnt _ => 0xF0FF
  | .bcd _ => 0xF0FF
  | .stm _ => 0xF0FF
  | .ldm _ => 0xF0FF

/-- The match value of an instruction's row of table R76. -/
def rowMatch : Instr → Word
  | .cls => 0x00E0
  | .ret => 0x00EE
  | .sys _ => 0x0000
  | .jp _ => 0x1000
  | .call _ => 0x2000
  | .sei _ _ => 0x3000
  | .snei _ _ => 0x4000
  | .se _ _ => 0x5000
  | .ldi _ _ => 0x6000
  | .addi _ _ => 0x7000
  | .mov _ _ => 0x8000
  | .or _ _ => 0x8001
  | .and _ _ => 0x8002
  | .xor _ _ => 0x8003
  | .add _ _ => 0x8004
  | .sub _ _ => 0x8005
  | .shr _ _ => 0x8006
  | .subn _ _ => 0x8007
  | .shl _ _ => 0x800E
  | .sne _ _ => 0x9000
  | .lda _ => 0xA000
  | .jpv0 _ => 0xB000
  | .rnd _ _ => 0xC000
  | .drw _ _ _ => 0xD000
  | .skp _ => 0xE09E
  | .sknp _ => 0xE0A1
  | .gdt _ => 0xF007
  | .key _ => 0xF00A
  | .sdt _ => 0xF015
  | .sst _ => 0xF018
  | .adda _ => 0xF01E
  | .fnt _ => 0xF029
  | .bcd _ => 0xF033
  | .stm _ => 0xF055
  | .ldm _ => 0xF065

/-- The word of an instruction is one of its row: `(op AND mask) = match` (R76, R86). -/
def Statement (i : Instr) : Prop := encode i &&& rowMask i = rowMatch i

theorem cls : Statement .cls := by unfold Statement; decide
theorem ret : Statement .ret := by unfold Statement; decide
theorem sys (nnn : Addr12) : Statement (.sys nnn) := by
  simp [Statement, encode, rowMask, rowMatch, and_class_mask]; decide
theorem jp (nnn : Addr12) : Statement (.jp nnn) := by
  simp [Statement, encode, rowMask, rowMatch, and_class_mask]; decide
theorem call (nnn : Addr12) : Statement (.call nnn) := by
  simp [Statement, encode, rowMask, rowMatch, and_class_mask]; decide
theorem sei (x : Nibble) (nn : Byte) : Statement (.sei x nn) := by
  simp [Statement, encode, rowMask, rowMatch, and_class_mask]; decide
theorem snei (x : Nibble) (nn : Byte) : Statement (.snei x nn) := by
  simp [Statement, encode, rowMask, rowMatch, and_class_mask]; decide
theorem se (x : Nibble) (y : Nibble) : Statement (.se x y) := by
  simp [Statement, encode, rowMask, rowMatch, and_class_N_mask]; decide
theorem ldi (x : Nibble) (nn : Byte) : Statement (.ldi x nn) := by
  simp [Statement, encode, rowMask, rowMatch, and_class_mask]; decide
theorem addi (x : Nibble) (nn : Byte) : Statement (.addi x nn) := by
  simp [Statement, encode, rowMask, rowMatch, and_class_mask]; decide
theorem mov (x : Nibble) (y : Nibble) : Statement (.mov x y) := by
  simp [Statement, encode, rowMask, rowMatch, and_class_N_mask]; decide
theorem or (x : Nibble) (y : Nibble) : Statement (.or x y) := by
  simp [Statement, encode, rowMask, rowMatch, and_class_N_mask]; decide
theorem and (x : Nibble) (y : Nibble) : Statement (.and x y) := by
  simp [Statement, encode, rowMask, rowMatch, and_class_N_mask]; decide
theorem xor (x : Nibble) (y : Nibble) : Statement (.xor x y) := by
  simp [Statement, encode, rowMask, rowMatch, and_class_N_mask]; decide
theorem add (x : Nibble) (y : Nibble) : Statement (.add x y) := by
  simp [Statement, encode, rowMask, rowMatch, and_class_N_mask]; decide
theorem sub (x : Nibble) (y : Nibble) : Statement (.sub x y) := by
  simp [Statement, encode, rowMask, rowMatch, and_class_N_mask]; decide
theorem shr (x : Nibble) (y : Nibble) : Statement (.shr x y) := by
  simp [Statement, encode, rowMask, rowMatch, and_class_N_mask]; decide
theorem subn (x : Nibble) (y : Nibble) : Statement (.subn x y) := by
  simp [Statement, encode, rowMask, rowMatch, and_class_N_mask]; decide
theorem shl (x : Nibble) (y : Nibble) : Statement (.shl x y) := by
  simp [Statement, encode, rowMask, rowMatch, and_class_N_mask]; decide
theorem sne (x : Nibble) (y : Nibble) : Statement (.sne x y) := by
  simp [Statement, encode, rowMask, rowMatch, and_class_N_mask]; decide
theorem lda (nnn : Addr12) : Statement (.lda nnn) := by
  simp [Statement, encode, rowMask, rowMatch, and_class_mask]; decide
theorem jpv0 (nnn : Addr12) : Statement (.jpv0 nnn) := by
  simp [Statement, encode, rowMask, rowMatch, and_class_mask]; decide
theorem rnd (x : Nibble) (nn : Byte) : Statement (.rnd x nn) := by
  simp [Statement, encode, rowMask, rowMatch, and_class_mask]; decide
theorem drw (x : Nibble) (y : Nibble) (n : Nibble) : Statement (.drw x y n) := by
  simp [Statement, encode, rowMask, rowMatch, and_class_mask]; decide
theorem skp (x : Nibble) : Statement (.skp x) := by
  simp [Statement, encode, rowMask, rowMatch, and_class_NN_mask]; decide
theorem sknp (x : Nibble) : Statement (.sknp x) := by
  simp [Statement, encode, rowMask, rowMatch, and_class_NN_mask]; decide
theorem gdt (x : Nibble) : Statement (.gdt x) := by
  simp [Statement, encode, rowMask, rowMatch, and_class_NN_mask]; decide
theorem key (x : Nibble) : Statement (.key x) := by
  simp [Statement, encode, rowMask, rowMatch, and_class_NN_mask]; decide
theorem sdt (x : Nibble) : Statement (.sdt x) := by
  simp [Statement, encode, rowMask, rowMatch, and_class_NN_mask]; decide
theorem sst (x : Nibble) : Statement (.sst x) := by
  simp [Statement, encode, rowMask, rowMatch, and_class_NN_mask]; decide
theorem adda (x : Nibble) : Statement (.adda x) := by
  simp [Statement, encode, rowMask, rowMatch, and_class_NN_mask]; decide
theorem fnt (x : Nibble) : Statement (.fnt x) := by
  simp [Statement, encode, rowMask, rowMatch, and_class_NN_mask]; decide
theorem bcd (x : Nibble) : Statement (.bcd x) := by
  simp [Statement, encode, rowMask, rowMatch, and_class_NN_mask]; decide
theorem stm (x : Nibble) : Statement (.stm x) := by
  simp [Statement, encode, rowMask, rowMatch, and_class_NN_mask]; decide
theorem ldm (x : Nibble) : Statement (.ldm x) := by
  simp [Statement, encode, rowMask, rowMatch, and_class_NN_mask]; decide

end Sys2Proof.Laws.WordMatchesRow
end

