-- ==== Sys2Proof/Tests/Slice0.lean ====
section
/-! SUPPORT. Tests. Words are written out bit by bit from the layouts of spec/30_encoding.md rules R73 and R76,
and expected values are those of spec/95_test_vectors.md, whose numbers the comments give. The witnesses at
the end show inputs that meet the hypotheses of the obligations, clause by clause, at the boundaries. -/

namespace Sys2Proof.Tests

open Sys2Proof Sys2Proof.Machine

/-! ### Helpers -/

/-- The reset state with some registers written. -/
def regs (l : List (Nibble × Byte)) : State := l.foldl (fun s p => s.setReg p.1 p.2) State.reset

/-- One step of the word `w` placed at `pc`. -/
def go (w : Nat) (s : State) : Option State :=
  match step (s.withFetchWord 16 w) with
  | .next t => some t
  | .fault _ => none
  | .refused _ => none

/-- Some bytes stored from address `a` on. -/
def store (a : Nat) (bs : List Byte) (s : State) : State := { s with mem := s.mem.writeBytes a bs }

/-- A keypad image by the bits of a number. -/
def press (k : BitVec 16) (s : State) : State := setKeys k s

/-- What a register test looks at: `v[1]`, `VF`, `pc`. -/
def alu (w : Nat) (l : List (Nibble × Byte)) : Option (Byte × Byte × Word) :=
  (go w (regs l)).map fun t => (t.reg 0x1, t.reg vf, t.pc)

/-- Where one step of `w` from `s` leaves `pc`. -/
def pcAfter (w : Nat) (s : State) : Option Word := (go w s).map State.pc

/-- `diag` and `outcome` of a step of the placed word. -/
def said (w : Nat) (s : State) : List Diag × StepOutcome :=
  (stepDiag (s.withFetchWord 16 w), stepOutcome (s.withFetchWord 16 w))

/-! ### WellFormed refuses the two forms that are no instruction (R84) -/

theorem test_wf_refuses_sys_0E0 : (Instr.sys 0x0E0).wellFormed = false := by decide
theorem test_wf_refuses_sys_0EE : (Instr.sys 0x0EE).wellFormed = false := by decide
theorem test_wf_admits_its_neighbours : (Instr.sys 0x0E1).wellFormed = true ∧
    (Instr.sys 0x0EF).wellFormed = true ∧ (Instr.jp 0x0E0).wellFormed = true := by decide

/-! ### Decoding, every constructor, from words written out -/

theorem test_decode_cls : decodeWord 0b0000000011100000#16 = some .cls := by decide
theorem test_decode_ret : decodeWord 0b0000000011101110#16 = some .ret := by decide
theorem test_decode_sys : decodeWord 0b0000001100000000#16 = some (.sys 0x300) := by decide
theorem test_decode_jp : decodeWord 0b0001101010111100#16 = some (.jp 0xABC) := by decide
theorem test_decode_call : decodeWord 0b0010010000000001#16 = some (.call 0x401) := by decide
theorem test_decode_sei : decodeWord 0b0011001101000010#16 = some (.sei 0x3 0x42) := by decide
theorem test_decode_snei : decodeWord 0b0100001101000011#16 = some (.snei 0x3 0x43) := by decide
theorem test_decode_se : decodeWord 0b0101001101000000#16 = some (.se 0x3 0x4) := by decide
theorem test_decode_ldi : decodeWord 0b0110101010111100#16 = some (.ldi 0xA 0xBC) := by decide
theorem test_decode_addi : decodeWord 0b0111101000000101#16 = some (.addi 0xA 0x05) := by decide
theorem test_decode_mov : decodeWord 0b1000000100100000#16 = some (.mov 0x1 0x2) := by decide
theorem test_decode_or : decodeWord 0b1000000100100001#16 = some (.or 0x1 0x2) := by decide
theorem test_decode_and : decodeWord 0b1000000100100010#16 = some (.and 0x1 0x2) := by decide
theorem test_decode_xor : decodeWord 0b1000000100100011#16 = some (.xor 0x1 0x2) := by decide
theorem test_decode_add : decodeWord 0b1000000100100100#16 = some (.add 0x1 0x2) := by decide
theorem test_decode_sub : decodeWord 0b1000000100100101#16 = some (.sub 0x1 0x2) := by decide
theorem test_decode_shr : decodeWord 0b1000000100100110#16 = some (.shr 0x1 0x2) := by decide
theorem test_decode_subn : decodeWord 0b1000000100100111#16 = some (.subn 0x1 0x2) := by decide
theorem test_decode_shl : decodeWord 0b1000000100101110#16 = some (.shl 0x1 0x2) := by decide
theorem test_decode_sne : decodeWord 0b1001001101000000#16 = some (.sne 0x3 0x4) := by decide
theorem test_decode_lda : decodeWord 0b1010000100100011#16 = some (.lda 0x123) := by decide
theorem test_decode_jpv0 : decodeWord 0b1011001100000001#16 = some (.jpv0 0x301) := by decide
theorem test_decode_rnd : decodeWord 0b1100001100001111#16 = some (.rnd 0x3 0x0F) := by decide
theorem test_decode_drw : decodeWord 0b1101000000010101#16 = some (.drw 0x0 0x1 0x5) := by decide
theorem test_decode_skp : decodeWord 0b1110010010011110#16 = some (.skp 0x4) := by decide
theorem test_decode_sknp : decodeWord 0b1110010010100001#16 = some (.sknp 0x4) := by decide
theorem test_decode_gdt : decodeWord 0b1111001000000111#16 = some (.gdt 0x2) := by decide
theorem test_decode_key : decodeWord 0b1111010100001010#16 = some (.key 0x5) := by decide
theorem test_decode_sdt : decodeWord 0b1111001000010101#16 = some (.sdt 0x2) := by decide
theorem test_decode_sst : decodeWord 0b1111001000011000#16 = some (.sst 0x2) := by decide
theorem test_decode_adda : decodeWord 0b1111001000011110#16 = some (.adda 0x2) := by decide
theorem test_decode_fnt : decodeWord 0b1111000000101001#16 = some (.fnt 0x0) := by decide
theorem test_decode_bcd : decodeWord 0b1111010000110011#16 = some (.bcd 0x4) := by decide
theorem test_decode_stm : decodeWord 0b1111001001010101#16 = some (.stm 0x2) := by decide
theorem test_decode_ldm : decodeWord 0b1111001001100101#16 = some (.ldm 0x2) := by decide

/-- V-D2 to V-D6: reserved words of the classes 5, 9, 8, E and F. -/
theorem test_decode_reserved : ([0x5121, 0x9AB1, 0x8128, 0x8129, 0x812A, 0x812B, 0x812C, 0x812D, 0x812F,
    0xE000, 0xE19F, 0xE1A0, 0xE09D, 0xF000, 0xF075, 0xF085, 0xF01F, 0xF066, 0xFFFF] : List Word).all
      (fun op => decodeWord op = none) = true := by decide
/-- V-D7: `SYS` is the rest of class 0. -/
theorem test_decode_class0 : ([0x00E1, 0x00EF, 0x00FF, 0x0000, 0x0200] : List Word).map decodeWord =
    ([0x0E1, 0x0EF, 0x0FF, 0x000, 0x200] : List Addr12).map (fun n => some (.sys n)) := by decide
/-- V-D1: the high byte comes first, and what follows the word is left over. -/
theorem test_decode_bytes : decode [0x12, 0x34, 0x56] = .ok (.jp 0x234, [0x56]) := by rfl
theorem test_decode_short : (decode [] matches .error _) = true ∧ (decode [0x12] matches .error _) = true := by
  decide
theorem test_decode_table_word : decodeTableWord 16 0x1234 = some (.jp 0x234) ∧
    decodeTableWord 16 0x5121 = none := by decide

/-! ### Control flow (V-F, V-D, P) -/

theorem test_jp : pcAfter 0x1ABC State.reset = some 0xABC := by decide
theorem test_jp_self : pcAfter 0x1300 { State.reset with pc := 0x300 } = some 0x300 := by decide
/-- V-F12. -/
theorem test_sys_is_no_call : (go 0x0300 State.reset).map (fun t => (t.pc, t.sp)) = some (0x300, 0) := by decide
/-- V-F4. -/
theorem test_call : (go 0x2400 { State.reset with pc := 0x250 }).map (fun t => (t.stack[0], t.sp, t.pc)) =
    some (0x250, 1, 0x400) := by decide
/-- V-F6. -/
theorem test_call_full : (go 0x2400 { State.reset with pc := 0x250, sp := 16 }).map
    (fun t => (t.stack, t.sp, t.pc)) = some (State.reset.stack, 16, 0x252) ∧
    said 0x2400 { State.reset with pc := 0x250, sp := 16 } = ([.stackOverflow], .ok) := by decide
/-- V-F5: the popped entry is not cleared. -/
theorem test_ret : (go 0x00EE { State.reset with pc := 0x400, sp := 1, stack := State.reset.stack.set 0 0x250 }).map
    (fun t => (t.stack[0], t.sp, t.pc)) = some (0x250, 0, 0x252) := by decide
/-- V-F7. -/
theorem test_ret_empty : pcAfter 0x00EE { State.reset with pc := 0x250 } = some 0x252 ∧
    said 0x00EE { State.reset with pc := 0x250 } = ([.stackUnderflow], .ok) := by decide
/-- V-F9. -/
theorem test_jpv0 : pcAfter 0xB300 (regs [(0x0, 0x10)]) = some 0x310 := by decide
/-- V-F10: no 12-bit wrap. -/
theorem test_jpv0_top : pcAfter 0xBFFF (regs [(0x0, 0xFF)]) = some 0x10FE := by decide
/-- V-S1 to V-S4. -/
theorem test_sei : pcAfter 0x3342 (regs [(0x3, 0x42)]) = some 0x204 ∧
    pcAfter 0x3343 (regs [(0x3, 0x42)]) = some 0x202 := by decide
theorem test_snei : pcAfter 0x4342 (regs [(0x3, 0x42)]) = some 0x202 ∧
    pcAfter 0x4343 (regs [(0x3, 0x42)]) = some 0x204 := by decide
/-- V-S5 to V-S8. -/
theorem test_se : pcAfter 0x5340 (regs [(0x3, 0x42), (0x4, 0x42)]) = some 0x204 ∧
    pcAfter 0x5340 (regs [(0x3, 0x42), (0x4, 0x43)]) = some 0x202 := by decide
theorem test_sne : pcAfter 0x9340 (regs [(0x3, 0x42), (0x4, 0x42)]) = some 0x202 ∧
    pcAfter 0x9340 (regs [(0x3, 0x42), (0x4, 0x43)]) = some 0x204 := by decide
/-- V-D8, V-D9, V-D10. -/
theorem test_last_word : (go 0x6007 { State.reset with pc := 0xFFE }).map (fun t => (t.reg 0x0, t.pc)) =
    some (7, 0x1000) ∧ stepDiag { State.reset with pc := 0x1000 } = [.fetchOutOfBounds] ∧
    stepDiag { State.reset with pc := 0xFFF } = [.fetchOutOfBounds] := by decide
theorem test_no_fetch_no_change : step { State.reset with pc := 0x1000 } =
    .next { State.reset with pc := 0x1000 } := rfl
/-- V-D11: an odd `pc` is fetched as it is. -/
theorem test_odd_pc : (go 0x6A07 { State.reset with pc := 0x203 }).map (fun t => (t.reg 0xA, t.pc)) =
    some (7, 0x205) := by decide
/-- V-D2. -/
theorem test_unknown_word : pcAfter 0x5121 State.reset = some 0x200 ∧
    said 0x5121 State.reset = ([.unknownOpcode], .unknown) := by decide

/-! ### Arithmetic and logic (V-A) -/

theorem test_ldi : (go 0x6ABC State.reset).map (State.reg · 0xA) = some 0xBC := by decide
theorem test_addi_wraps : alu 0x7101 [(0x1, 0xFF)] = some (0x00, 0, 0x202) := by decide
theorem test_addi_vf : alu 0x7F02 [(0xF, 0xFF)] = some (0, 0x01, 0x202) := by decide
theorem test_mov : alu 0x8120 [(0x2, 0x5A)] = some (0x5A, 0, 0x202) := by decide
theorem test_mov_vf : alu 0x8F10 [(0x1, 0x42), (0xF, 9)] = some (0x42, 0x42, 0x202) := by decide
theorem test_or : alu 0x8121 [(0x1, 0xF0), (0x2, 0x0F), (0xF, 7)] = some (0xFF, 7, 0x202) := by decide
theorem test_and : alu 0x8122 [(0x1, 0xF0), (0x2, 0x3C), (0xF, 7)] = some (0x30, 7, 0x202) := by decide
theorem test_xor : alu 0x8123 [(0x1, 0xF0), (0x2, 0x3C), (0xF, 7)] = some (0xCC, 7, 0x202) := by decide
/-- V-A12, V-A14. -/
theorem test_add : alu 0x8124 [(0x1, 0xFF), (0x2, 0x01)] = some (0x00, 1, 0x202) ∧
    alu 0x8124 [(0x1, 0x7F), (0x2, 0x80)] = some (0xFF, 0, 0x202) := by decide
/-- V-A36, V-A44: `VF` as destination and as operand. -/
theorem test_add_vf : alu 0x8F14 [(0xF, 0xF0), (0x1, 0x20)] = some (0x20, 1, 0x202) ∧
    alu 0x81F4 [(0xF, 0x01), (0x1, 0x01)] = some (0x02, 0, 0x202) := by decide
/-- V-A17, V-A20. -/
theorem test_sub : alu 0x8125 [(0x1, 0x05), (0x2, 0x05)] = some (0x00, 1, 0x202) ∧
    alu 0x8125 [(0x1, 0x10), (0x2, 0x20)] = some (0xF0, 0, 0x202) := by decide
/-- V-A38, V-A39. -/
theorem test_sub_vf : alu 0x8F15 [(0xF, 5), (0x1, 5)] = some (5, 1, 0x202) ∧
    alu 0x8F15 [(0xF, 4), (0x1, 5)] = some (5, 0, 0x202) := by decide
/-- V-A26, V-A27. -/
theorem test_subn : alu 0x8127 [(0x1, 0x20), (0x2, 0x10)] = some (0xF0, 0, 0x202) ∧
    alu 0x8127 [(0x1, 0x10), (0x2, 0x20)] = some (0x10, 1, 0x202) := by decide
/-- V-A30, V-A31. -/
theorem test_shr : alu 0x8126 [(0x1, 0xFF), (0x2, 0xFF)] = some (0x7F, 1, 0x202) ∧
    alu 0x8126 [(0x1, 0x80), (0x2, 0xFF)] = some (0x40, 0, 0x202) := by decide
/-- V-A33, V-A35. -/
theorem test_shl : alu 0x812E [(0x1, 0x80), (0x2, 0xFF)] = some (0x00, 1, 0x202) ∧
    alu 0x812E [(0x1, 0x40), (0x2, 0xFF)] = some (0x80, 0, 0x202) := by decide
/-- V-A40, V-A42. -/
theorem test_shift_vf : alu 0x8F16 [(0xF, 0x03)] = some (0, 1, 0x202) ∧
    alu 0x8FFE [(0xF, 0x80)] = some (0, 1, 0x202) := by decide
/-- V-A49, V-A50. -/
theorem test_rnd : (match stepWith 0xA7 (State.reset.withFetchWord 16 0xC30F) with
      | .next t => some (t.reg 0x3, t.pc) | .fault _ => none | .refused _ => none) = some (0x07, 0x202) ∧
    (match stepWith 0xA7 (State.reset.withFetchWord 16 0xC3FF) with
      | .next t => some (t.reg 0x3, t.pc) | .fault _ => none | .refused _ => none) = some (0xA7, 0x202) := by
  decide
theorem test_rnd_counts_a_draw : (go 0xC30F State.reset).map (fun t => (t.draws, t.pc)) = some (1, 0x202) := by
  decide

/-! ### Index register and memory (V-M) -/

/-- V-M1. -/
theorem test_lda : (go 0xA123 State.reset).map (fun t => (t.I, t.pc)) = some (0x123, 0x202) := by decide
/-- V-M3, V-M4. -/
theorem test_adda : (go 0xF01E { regs [(0x0, 0x01)] with I := 0x0FFF }).map (fun t => (t.I, t.reg vf)) =
    some (0x1000, 0) ∧ (go 0xF01E { regs [(0x0, 0x02)] with I := 0xFFFF }).map State.I = some 0x0001 := by decide
/-- V-M5. -/
theorem test_fnt : (go 0xF029 (regs [(0x0, 0x0A)])).map State.I = some 0x32 ∧
    (go 0xF029 (regs [(0x0, 0xFF)])).map State.I = some 0x4FB := by decide
/-- V-M6. -/
theorem test_bcd : (go 0xF433 { regs [(0x4, 157)] with I := 0x300 }).map
    (fun t => (t.mem.read 0x300, t.mem.read 0x301, t.mem.read 0x302, t.I)) = some (1, 5, 7, 0x300) := by decide
/-- V-M9. -/
theorem test_bcd_top : (go 0xF033 { regs [(0x0, 157)] with I := 0xFFE }).map
    (fun t => (t.mem.read 0xFFE, t.mem.read 0xFFF, t.I, t.pc)) = some (1, 5, 0xFFE, 0x202) ∧
    said 0xF033 { regs [(0x0, 157)] with I := 0xFFE } = ([.memOutOfBounds], .ok) := by decide
/-- V-M7. -/
theorem test_stm : (go 0xF255 { regs [(0x0, 0x11), (0x1, 0x22), (0x2, 0x33), (0x3, 0x44)] with I := 0x400 }).map
    (fun t => (t.mem.read 0x400, t.mem.read 0x402, t.mem.read 0x403, t.I)) = some (0x11, 0x33, 0, 0x403) := by
  decide
/-- V-M8. -/
theorem test_stm_top : (go 0xF155 { regs [(0x0, 0x11), (0x1, 0x22)] with I := 0xFFF }).map
    (fun t => (t.mem.read 0xFFF, t.mem.read 0x1000, t.I, t.pc)) = some (0x11, 0, 0x1001, 0x202) ∧
    said 0xF155 { regs [(0x0, 0x11), (0x1, 0x22)] with I := 0xFFF } = ([.memOutOfBounds], .ok) := by decide
/-- V-M14: glyph 0 of the font. -/
theorem test_ldm_font : (go 0xF465 { State.reset with I := 0x050 }).map
    (fun t => ([t.reg 0x0, t.reg 0x1, t.reg 0x2, t.reg 0x3, t.reg 0x4, t.reg 0x5], t.I)) =
    some ([0xF0, 0x90, 0x90, 0x90, 0xF0, 0], 0x055) := by decide
/-- V-M10. -/
theorem test_ldm_top : (go 0xF165 { store 0xFFF [0x77] (regs [(0x1, 0x55)]) with I := 0xFFF }).map
    (fun t => (t.reg 0x0, t.reg 0x1, t.I)) = some (0x77, 0x55, 0x1001) := by decide

/-! ### Display (V-G) -/

/-- V-G12. -/
theorem test_cls : (go 0x00E0 { regs [(0xF, 9)] with fb := Vector.replicate 32 (Vector.replicate 64 true) }).map
    (fun t => (pixelPort t 0 0, pixelPort t 31 63, t.redraw, t.reg vf)) = some (false, false, true, 9) := by decide
/-- V-G6: the bottom right corner. -/
theorem test_drw_corner : (go 0xD011 { store 0x300 [0x80] (regs [(0x0, 63), (0x1, 31)]) with I := 0x300 }).map
    (fun t => (pixelPort t 31 63, pixelPort t 31 62, pixelPort t 0 0, t.reg vf, t.redraw)) =
    some (true, false, false, 0, true) := by decide
/-- V-G8: a collision, and bit 7 is the leftmost column. -/
theorem test_drw_collision : (go 0xD011 { store 0x300 [0xC0] State.reset with
      I := 0x300, fb := Framebuffer.toggle blankScreen 0 0 }).map
    (fun t => (pixelPort t 0 0, pixelPort t 0 1, pixelPort t 0 7, t.reg vf)) =
    some (false, true, false, 1) := by decide

/-! ### Keypad and timers (V-K) -/

/-- V-K1, V-K2. -/
theorem test_skp : pcAfter 0xE49E { press 0x0080 (regs [(0x4, 7)]) with pc := 0x210 } = some 0x214 ∧
    pcAfter 0xE49E { regs [(0x4, 7)] with pc := 0x210 } = some 0x212 := by decide
/-- V-K5, V-K7. -/
theorem test_skp_range : said 0xE49E (regs [(0x4, 0x10)]) = ([.keyIndexOutOfRange], .ok) ∧
    pcAfter 0xE49E (press 0x8000 (regs [(0x4, 0x0F)])) = some 0x204 := by decide
/-- V-K3, V-K4. -/
theorem test_sknp : pcAfter 0xE4A1 { regs [(0x4, 7)] with pc := 0x210 } = some 0x214 ∧
    pcAfter 0xE4A1 { press 0x0080 (regs [(0x4, 7)]) with pc := 0x210 } = some 0x212 := by decide
/-- V-K6. -/
theorem test_sknp_range : pcAfter 0xE4A1 { regs [(0x4, 0x17)] with pc := 0x210 } = some 0x212 ∧
    said 0xE4A1 (regs [(0x4, 0x17)]) = ([.keyIndexOutOfRange], .ok) := by decide
/-- V-K8. -/
theorem test_key_waits : go 0xF50A State.reset = some (State.reset.withFetchWord 16 0xF50A) ∧
    said 0xF50A State.reset = ([], .waitKey) := by decide
/-- V-K9. -/
theorem test_key_lowest : (go 0xF50A (press 0x0208 State.reset)).map (fun t => (t.reg 0x5, t.pc)) =
    some (3, 0x202) := by decide
/-- V-K12. -/
theorem test_gdt : (go 0xF207 { State.reset with DT := 0x3C }).map (fun t => (t.reg 0x2, t.DT)) =
    some (0x3C, 0x3C) := by decide
/-- V-K13. -/
theorem test_sdt : (go 0xF215 (regs [(0x2, 0x3C)])).map (fun t => (t.DT, t.ST)) = some (0x3C, 0) := by decide
/-- V-K14. -/
theorem test_sst : (go 0xF218 (regs [(0x2, 0x01)])).map (fun t => (t.DT, t.ST)) = some (0, 1) := by decide

/-! ### Events other than STEP (V-T) -/

/-- V-T2, V-T3, V-T4. -/
theorem test_tick : (tick { State.reset with DT := 5, ST := 2 }).DT = 4 ∧
    (tick { State.reset with DT := 5, ST := 2 }).ST = 1 ∧ soundCue { State.reset with ST := 2 } = false ∧
    soundCue { State.reset with ST := 1 } = true ∧ soundCue { State.reset with ST := 0 } = false := by decide
/-- V-T1. -/
theorem test_tick_zero : tick State.reset = State.reset := by decide
/-- V-T7, V-T8. -/
theorem test_keys : (List.finRange 16).filter (fun k => (setKeys 0x0208 State.reset).key[k]) = [3, 9] ∧
    setKeys 0x0000 (setKeys 0x0208 State.reset) = State.reset := by decide
/-- V-T9. -/
theorem test_redraw_ack : redrawAck { State.reset with redraw := true } = State.reset := by decide
/-- V-T11, and the program P1 at its first word. -/
theorem test_reset_empty : resetWith [] = .next State.reset := rfl
theorem test_reset_program :
    (match resetWith [0x6A, 0x02, 0x7A, 0x05] with
      | .next t => some (t.mem.read 0x200, t.mem.read 0x203, t.mem.read 0x204, t.pc)
      | .fault _ => none | .refused _ => none) = some (0x6A, 0x05, 0, 0x200) := by decide

/-! ### Witnesses: inputs that meet the hypotheses of each obligation -/

/-- A state with the word `w` at its `pc`. -/
def at_ (w : Nat) (s : State) : State := s.withFetchWord 16 w

/-- `DecoderFollowsTheOpcodeMap`: the premises of the clause of `SYS` at its edges; those of the other
clauses are met by the words of the decode tests. -/
theorem witness_opcode_map_sys : ([0x0000, 0x00DF, 0x00E1, 0x00ED, 0x00EF, 0x0FFF] : List Word).all
    (fun op => op &&& 0xF000#16 = 0x0000#16 ∧ op ≠ 0x00E0#16 ∧ op ≠ 0x00EE#16) = true := by decide
theorem witness_opcode_map_wide :
    ([(0x1ABC, 0x1000), (0x2401, 0x2000), (0x3342, 0x3000), (0x4343, 0x4000), (0x6ABC, 0x6000), (0x7A05, 0x7000),
      (0xA123, 0xA000), (0xB301, 0xB000), (0xC30F, 0xC000), (0xD015, 0xD000)] : List (Word × Word)).all
    (fun p => p.1 &&& 0xF000#16 = p.2) = true := by decide
theorem witness_opcode_map_xy :
    ([(0x5340, 0x5000), (0x8120, 0x8000), (0x8121, 0x8001), (0x8122, 0x8002), (0x8123, 0x8003), (0x8124, 0x8004),
      (0x8125, 0x8005), (0x8126, 0x8006), (0x8127, 0x8007), (0x812E, 0x800E), (0x9340, 0x9000)] :
      List (Word × Word)).all (fun p => p.1 &&& 0xF00F#16 = p.2) = true := by decide
theorem witness_opcode_map_x :
    ([(0xE49E, 0xE09E), (0xE4A1, 0xE0A1), (0xF207, 0xF007), (0xF50A, 0xF00A), (0xF215, 0xF015), (0xF218, 0xF018),
      (0xF21E, 0xF01E), (0xF029, 0xF029), (0xF433, 0xF033), (0xF255, 0xF055), (0xF265, 0xF065)] :
      List (Word × Word)).all (fun p => p.1 &&& 0xF0FF#16 = p.2) = true := by decide
theorem witness_decode_of_encode : (Instr.sys 0xFFF).wellFormed = true ∧
    (Instr.drw 0xF 0xF 0xF).wellFormed = true ∧ (Instr.ldm 0xF).wellFormed = true := by decide
theorem witness_encode_of_decode : decodeWord 0x8FFE = some (.shl 0xF 0xF) := by decide
/-- `UnrecognizedWordsAreTheReservedOnes`: the last recognized and the first reserved word of each class. -/
theorem witness_unrecognized : decodeWord 0x5FF0 = some (.se 0xF 0xF) ∧ decodeWord 0x5FF1 = none ∧
    decodeWord 0x8FF7 = some (.subn 0xF 0xF) ∧ decodeWord 0x8FF8 = none ∧ decodeWord 0x8FFF = none ∧
    decodeWord 0xEF9F = none ∧ decodeWord 0xFF66 = none := by decide
/-- `StepRunsTheDecodedInstruction`: beyond the bound, and at the bound with and without an instruction. -/
theorem witness_step : 0xFFE < ({ State.reset with pc := 0xFFF } : State).pc.toNat ∧
    ({ State.reset with pc := 0xFFE } : State).pc.toNat ≤ 0xFFE ∧
    (at_ 0x5121 { State.reset with pc := 0xFFE }).fetch? = some 0x5121 ∧ decodeWord 0x5121 = none ∧
    (at_ 0x6007 { State.reset with pc := 0xFFE }).fetch? = some 0x6007 ∧
    decodeWord 0x6007 = some (.ldi 0x0 0x07) := by decide
/-- `PlacedWordIsTheNextInstruction`, with `pc` at and beyond the bound. -/
theorem witness_placed : decodeTableWord 16 0xFF65 = some (.ldm 0xF) ∧
    (at_ 0xFF65 { State.reset with pc := 0xFFE }).pc = 0xFFE ∧
    (at_ 0xFF65 { State.reset with pc := 0xFFF }).pc = 0x200 ∧
    (at_ 0xFF65 { State.reset with pc := 0xFFF }).fetch? = some 0xFF65 := by decide
theorem witness_fetch_beyond : 0xFFE < ({ State.reset with pc := 0x10FE } : State).pc.toNat := by decide
theorem witness_unknown_held : (at_ 0x5121 State.reset).heldUnknown = true ∧
    ∀ e ∈ [Event.tick, .keys 0xFFFF, .step 7, .redrawAck], ∀ rom, e ≠ .reset rom := by
  refine ⟨by decide, ?_⟩
  intro e he rom h
  subst h
  simp at he
/-- `ReturnGoesPastTheCall`: `sp` 0, and 16 with its last entry. -/
theorem witness_return : State.reset.sp.val = 0 ∧ 0 < ({ State.reset with sp := 16 } : State).sp.val ∧
    (15 : Fin 16).val + 1 = ({ State.reset with sp := 16 } : State).sp.val := by decide
theorem witness_call : ({ State.reset with sp := 16 } : State).sp.val = 16 ∧
    ({ State.reset with sp := 15 } : State).sp.val < 16 := by decide
theorem witness_call_return : State.reset.sp.val < 16 ∧ ∃ t, exec (.call 0x400) State.reset = .next t ∧
    SameStack t { t with DT := 9 } := ⟨by decide, _, rfl, rfl, rfl⟩
theorem witness_jumps : fieldCls 0x0FFF = 0x0 ∧ (0x0FFF#16) ≠ 0x00E0#16 ∧ (0x0FFF#16) ≠ 0x00EE#16 := by decide
/-- `OtherInstructionsAdvanceByTwo`, with a `KEY` and with another instruction. -/
theorem witness_advance : (Instr.key 0x1).setsPc = false ∧ (press 0x8000 State.reset).key[(15 : Fin 16)] = true ∧
    Instr.cls.setsPc = false ∧ ∀ x, Instr.cls ≠ .key x := by
  refine ⟨by decide, by decide, by decide, ?_⟩
  intro x h
  cases h
/-- The result clause of `ADD`, `SUB`, `SUBN`, `SHR`, `SHL` and the flag clause of `ADDI`. -/
theorem witness_not_vf : (0xE : Nibble) ≠ vf := by decide
theorem witness_rnd : (at_ 0xC30F State.reset).fetch? = some (encode (.rnd 0x3 0x0F)) := by decide
theorem witness_not_rnd : ∀ x nn, (at_ 0x6ABC State.reset).fetch? ≠ some (encode (.rnd x nn)) := by
  intro x nn h
  have h1 : (at_ 0x6ABC State.reset).fetch? = some 0x6ABC := by decide
  have h2 : (0x6ABC : Word).toNat = (wordXNN 0xC x nn).toNat :=
    congrArg BitVec.toNat (Option.some.inj (h1.symm.trans h))
  rw [toNat_wordXNN] at h2
  simp at h2
  omega
theorem witness_vf_written : ∃ t, exec (.ldi vf 1) State.reset = .next t ∧ t.reg vf ≠ State.reset.reg vf :=
  ⟨_, rfl, by decide⟩
/-- `BcdStoresTheDecimalDigits`: each digit at the last address it has, and one beyond. -/
theorem witness_bcd : ({ State.reset with I := 0xFFF } : State).ea 0 ≤ 0xFFF ∧
    ({ State.reset with I := 0xFFE } : State).ea 1 ≤ 0xFFF ∧
    ({ State.reset with I := 0xFFD } : State).ea 2 ≤ 0xFFF ∧
    ¬ ({ State.reset with I := 0xFFE } : State).ea 2 ≤ 0xFFF := by decide
theorem witness_transfer : (0xF : Nibble).toNat ≤ (0xF : Nibble).toNat ∧
    ({ State.reset with I := 0xFF0 } : State).ea (0xF : Nibble).toNat ≤ 0xFFF ∧
    0xFFF < ({ State.reset with I := 0xFF1 } : State).ea (0xF : Nibble).toNat := by decide
/-- `StoreLoadRoundTrip`, at an index whose second byte is out of range and keeps its register. -/
theorem witness_round_trip : ∃ t u w, exec (.stm 0x1) { regs [(0x0, 0x11), (0x1, 0x22)] with I := 0xFFF } = .next t ∧
    u.mem = t.mem ∧ u.I = 0xFFF ∧ u.reg 0x0 = 0x99 ∧ u.reg 0x1 = 0x22 ∧ exec (.ldm 0x1) u = .next w ∧
    w.reg 0x0 = 0x11 := by
  refine ⟨_, { ({ regs [(0x0, 0x11), (0x1, 0x22)] with I := 0xFFF }.storeBytes [0x11, 0x22]).setReg 0x0 0x99
    with I := 0xFFF }, _, rfl, by decide, by decide, by decide, by decide, rfl, by decide⟩
/-- `StoredBytesAreFetchedNext`, at the last word of memory. -/
theorem witness_stored_fetched : ∃ t, exec (.stm 0x2) { State.reset with I := 0xFFD, pc := 0xFFC } = .next t ∧
    (0x1 : Nibble).toNat + 1 ≤ (0x2 : Nibble).toNat ∧
    ({ State.reset with I := 0xFFD, pc := 0xFFC } : State).ea (0x1 : Nibble).toNat =
      (({ State.reset with I := 0xFFD, pc := 0xFFC } : State).pc + 2#16).toNat ∧
    ({ State.reset with I := 0xFFD, pc := 0xFFC } : State).ea (0x1 : Nibble).toNat ≤ 0xFFE :=
  ⟨_, rfl, by decide, by decide, by decide⟩
theorem witness_canonical : Memory.wf [(0x000, 0x01), (0xFFF, 0x02)] ∧
    Memory.writeBytes [] 0x050 [0xF0] = [] := by decide
/-- `DrawTogglesThePixelsUnderTheSprite`: a pixel under the sprite, wrapped on both axes, and one that is
not; a pixel that was on; rows in and out of range. -/
theorem witness_draw : UnderSprite { State.reset with I := 0x050 } 62 30 5 0 0 → False := by
  rintro ⟨r, c, hr, hc, -, hb, hy, hx⟩
  have h2 : r = 2 := by simp at hy; omega
  have h3 : c = 2 := by simp at hx; omega
  subst h2
  subst h3
  revert hb
  decide
theorem witness_draw_under : UnderSprite { State.reset with I := 0x050 } 62 30 5 1 1 :=
  ⟨3, 3, by decide, by decide, by decide, by decide, by decide, by decide⟩
theorem witness_draw_collision :
    UnderSprite { State.reset with I := 0x050, fb := Framebuffer.toggle blankScreen 1 1 } 62 30 5 1 1 ∧
    pixelPort { State.reset with I := 0x050, fb := Framebuffer.toggle blankScreen 1 1 } 1 1 = true :=
  ⟨⟨3, 3, by decide, by decide, by decide, by decide, by decide, by decide⟩, by decide⟩
theorem witness_draw_no_collision : ¬ ∃ py px, UnderSprite { State.reset with I := 0x050 } 62 30 5 py px ∧
    pixelPort { State.reset with I := 0x050 } py px = true := by
  rintro ⟨py, px, -, h⟩
  simp [pixelPort, Framebuffer.pixel, State.reset] at h
theorem witness_draw_rows : (∀ r, r < 15 → ({ State.reset with I := 0xFF1 } : State).ea r ≤ 0xFFF) ∧
    (∃ r, r < 15 ∧ 0xFFF < ({ State.reset with I := 0xFF2 } : State).ea r) := by
  refine ⟨?_, 14, by decide, by decide⟩
  intro r h
  simp [State.ea]
  omega
/-- `DoubleDrawRestoresTheFramebuffer`, with the picture of V-G2 and V-G3 in one corner and `VF`. -/
theorem witness_double_draw : ∃ t u, exec (.drw 0x0 0x1 0x5) { regs [(0x0, 62), (0x1, 30)] with I := 0x050 } = .next t ∧
    exec (.drw 0x0 0x1 0x5) t = .next u ∧ (0x0 : Nibble) ≠ vf ∧ (0x1 : Nibble) ≠ vf ∧ pixelPort t 30 62 = true ∧
    t.reg vf = 0 ∧ pixelPort u 30 62 = false ∧ u.reg vf = 1 :=
  ⟨_, _, rfl, rfl, by decide, by decide, by decide, by decide, by decide, by decide⟩
theorem witness_sprite_cells : 2047 ∈ spriteCells 63 31 1 := by decide
/-- `KeySkipsTestTheNumberedKey`: the largest key and the first number that is none. -/
theorem witness_key_numbers : ((regs [(0x4, 15)]).reg 0x4).toNat = (15 : Fin 16).val ∧
    16 ≤ ((regs [(0x4, 16)]).reg 0x4).toNat := by decide
/-- `KeyWaitsForTheLowestPressedKey`: no key, and the last key alone. -/
theorem witness_key_wait : (∀ k : Fin 16, State.reset.key[k] = false) ∧
    (press 0x8000 State.reset).key[(15 : Fin 16)] = true ∧
    ∀ j : Fin 16, j < 15 → (press 0x8000 State.reset).key[j] = false := by decide
/-- `ResetLeavesTheStatedValues` and `OversizeResetLeavesNoState`: the largest ROM and one byte more. -/
theorem witness_rom_sizes : (List.replicate 3584 (0xAA : Byte)).length ≤ 3584 ∧
    3584 < (List.replicate 3585 (0xAA : Byte)).length := by
  rw [List.length_replicate, List.length_replicate]
  omega
theorem witness_no_state : ∀ rom, Event.tick ≠ .reset rom := by
  intro rom h
  cases h
/-- `EachStorageHasItsListedWriters`: every clause's premise is met by an instruction that runs. -/
theorem witness_writers_mem : ∃ t, exec (.bcd 0x0) { regs [(0x0, 157)] with I := 0x300 } = .next t ∧
    t.mem.read 0x300 ≠ ({ regs [(0x0, 157)] with I := 0x300 } : State).mem.read 0x300 := ⟨_, rfl, by decide⟩
theorem witness_writers_stack : ∃ t, exec (.call 0x400) State.reset = .next t ∧ t.stack ≠ State.reset.stack ∧
    t.sp ≠ State.reset.sp := ⟨_, rfl, by decide, by decide⟩
theorem witness_writers_screen : ∃ t, exec (.drw 0x0 0x0 0x1) { State.reset with I := 0x050 } = .next t ∧
    pixelPort t 0 0 ≠ pixelPort State.reset 0 0 ∧ t.redraw ≠ State.reset.redraw := ⟨_, rfl, by decide, by decide⟩
theorem witness_writers_timers : ∃ t u, exec (.sdt 0x0) (regs [(0x0, 1)]) = .next t ∧ t.DT ≠ State.reset.DT ∧
    exec (.sst 0x0) (regs [(0x0, 1)]) = .next u ∧ u.ST ≠ State.reset.ST :=
  ⟨_, _, rfl, by decide, rfl, by decide⟩
theorem witness_writers_index : ∃ t, exec (.lda 0x123) State.reset = .next t ∧ t.I ≠ State.reset.I :=
  ⟨_, rfl, by decide⟩
theorem witness_not_read : ∃ t, step (at_ 0x6ABC State.reset) = .next t ∧ t.reg 0xA = 0xBC :=
  ⟨_, rfl, by decide⟩
/-- `OutcomeOtherThanOkMeansNoChange`: the three other outcomes. -/
theorem witness_outcomes : stepOutcome (at_ 0xF50A State.reset) = .waitKey ∧
    stepOutcome (at_ 0x5121 State.reset) = .unknown ∧
    stepOutcome { State.reset with pc := 0xFFF } = .fetchOob := by decide
/-- `TerminalStatesNeverChange`: each kind R193 names. -/
theorem witness_terminal : ({ State.reset with pc := 0xFFF } : State).terminal = true ∧
    (at_ 0x5121 State.reset).terminal = true ∧ (at_ 0x1200 State.reset).terminal = true ∧
    (at_ 0x0200 State.reset).terminal = true ∧ (at_ 0xB1FF (regs [(0x0, 1)])).terminal = true ∧
    (at_ 0x1202 State.reset).terminal = false := by decide
theorem witness_reset_leaves_a_state : ∃ t, resetWith [0x12, 0x00] = .next t ∧ t.mem.read 0x200 = 0x12 :=
  ⟨_, rfl, by decide⟩
theorem witness_invariant_at_reset : State.reset.Inv := by decide
/-- `StepKeepsTheInvariant`, at the largest jump. -/
theorem witness_invariant_step : (at_ 0xBFFF (regs [(0x0, 0xFF)])).Inv ∧
    ∃ t, step (at_ 0xBFFF (regs [(0x0, 0xFF)])) = .next t ∧ t.pc = 0x10FE := ⟨by decide, _, rfl, by decide⟩
theorem witness_reachable : ∃ t, runEvents none [.reset [0x60, 0x07], .keys 0x8000, .step 3, .tick] = some t ∧
    t.reg 0x0 = 7 := ⟨_, rfl, by decide⟩

end Sys2Proof.Tests
end

/-! SUPPORT. What RESET leaves in memory and in the other elements of the state (R36, R200), and from it
the statement on RESET. -/

namespace Sys2Proof.Machine

/-! ### Memory after RESET with an empty ROM -/

/-- RESET leaves byte `k` of `FONT` at `FONT_BASE + k` (R33, R36). -/
theorem font_getElem?_eq_resetByte {k : Nat} (hk : k < 80) : font[k]? = some (resetByte (0x050 + k)) := by
  have hfont : fontBase ≤ 0x050 + k ∧ 0x050 + k < fontBase + 80 := by simp only [fontBase]; omega
  have hlen : k < font.length := hk
  rw [resetByte, if_pos hfont, Nat.add_sub_cancel_left, List.getElem?_eq_getElem hlen,
    List.getD_eq_getElem _ _ hlen]

/-- RESET leaves zero outside the font (R36). -/
theorem resetByte_outside_font {a : Nat} (h : a < 0x050 ∨ 0x0A0 ≤ a) : resetByte a = 0 :=
  if_neg (by simp only [fontBase]; omega)

/-! ### Memory after RESET with a ROM -/

/-- The memory RESET builds: the ROM stored at `ROM_BASE` (R200). -/
abbrev romMemory (rom : List Byte) : Memory := Memory.writeBytes [] romBase rom

/-- The ROM leaves every byte outside its range at what RESET installs. -/
theorem read_romMemory_outside (rom : List Byte) {a : Nat} (h : a < 0x200 ∨ 0x200 + rom.length ≤ a) :
    (romMemory rom).read a = resetByte a :=
  Memory.read_writeBytes_outside [] romBase rom a h

/-- Outside the font and the ROM memory is zero. -/
theorem read_romMemory_zero (rom : List Byte) {a : Nat} (hfont : a < 0x050 ∨ 0x0A0 ≤ a)
    (hrom : a < 0x200 ∨ 0x200 + rom.length ≤ a) : (romMemory rom).read a = 0 :=
  (read_romMemory_outside rom hrom).trans (resetByte_outside_font hfont)

/-- A ROM of at most `ROM_MAX` bytes lies in memory as a whole, so each of its bytes is stored. -/
theorem getElem?_eq_read_romMemory {rom : List Byte} (hfit : rom.length ≤ 3584) {k : Nat}
    (hk : k < rom.length) : rom[k]? = some ((romMemory rom).read (0x200 + k)) := by
  have hmem : InMemory (romBase + k) := by simp only [InMemory, romBase]; omega
  rw [List.getElem?_eq_getElem hk, Memory.read_writeBytes_inside [] romBase rom k hk hmem]

/-! ### The state after RESET -/

/-- RESET with a ROM that fits differs from RESET with none in memory only (R200). -/
theorem resetWith_of_length_le {rom : List Byte} (hfit : rom.length ≤ 3584) :
    resetWith rom = .next { State.reset with mem := romMemory rom } :=
  if_pos hfit

@[simp] theorem reset_reg (r : Nibble) : State.reset.reg r = 0 := Vector.getElem_replicate _

theorem reset_stack_entry (k : Fin 16) : State.reset.stack[k] = 0 := Vector.getElem_replicate _

theorem reset_key_entry (k : Fin 16) : State.reset.key[k] = false := Vector.getElem_replicate _

@[simp] theorem reset_pixelPort (y : Fin 32) (x : Fin 64) : pixelPort State.reset y x = false :=
  pixel_blankScreen y x

/-- Settles O43: RESET with a ROM that fits answers the reset state with the ROM's memory; the bytes of that
memory are read range by range, the other elements are those of `State.reset`. -/
theorem resetLeavesTheStatedValues : Obligations.ResetLeavesTheStatedValues := by
  refine ⟨rfl, fun rom hfit => ⟨_, resetWith_of_length_le hfit, ?low, ?font, ?gap, ?rom, ?high, rfl, reset_reg,
    rfl, rfl, rfl, reset_stack_entry, rfl, rfl, reset_pixelPort, rfl, reset_key_entry⟩⟩
  case low => exact fun a ha => read_romMemory_zero rom (by omega) (by omega)
  case font =>
    intro k hk
    rw [read_romMemory_outside rom (by omega)]
    exact font_getElem?_eq_resetByte hk
  case gap => exact fun a hlo hhi => read_romMemory_zero rom (by omega) (by omega)
  case rom => exact fun k hk => getElem?_eq_read_romMemory hfit hk
  case high => exact fun a ha _ => read_romMemory_zero rom (by omega) (by omega)

end Sys2Proof.Machine

/-! SUPPORT. Control transfer (R101 to R104): what a jump and a push leave unchanged, what CALL answers on a
full stack and on one with room, how a word of class 0 decodes; and from them the statements on CALL, SYS, JP
and JPV0. -/

namespace Sys2Proof.Machine

/-! ### Frames of the sequencing operations -/

/-- An advance writes `pc` alone (R24). -/
theorem onlyPc_advance (s : State) : OnlyPc s s.advance :=
  ⟨fun _ _ => rfl, fun _ => rfl, ⟨rfl, rfl⟩, ⟨rfl, rfl⟩, ⟨rfl, rfl⟩, rfl, rfl, rfl⟩

/-- A jump writes `pc` alone. -/
theorem onlyPc_jump (s : State) (e : Word) : OnlyPc s (s.jump e) :=
  ⟨fun _ _ => rfl, fun _ => rfl, ⟨rfl, rfl⟩, ⟨rfl, rfl⟩, ⟨rfl, rfl⟩, rfl, rfl, rfl⟩

theorem sameMem_push (s : State) (e : Word) : SameMem s (s.push e) := fun a =>
  congrArg (Memory.read · a) (push_mem s e)

/-! ### CALL (R103) -/

/-- `CALL` on a full stack only advances `pc`. -/
theorem exec_call_of_full {s : State} (hfull : s.sp.val = 16) (nnn : Addr12) :
    exec (.call nnn) s = .next s.advance :=
  if_pos ((stackFull_iff s).2 hfull)

/-- `CALL` on a stack with room pushes its own address and jumps. -/
theorem exec_call_of_room {s : State} (hroom : s.sp.val < 16) (nnn : Addr12) :
    exec (.call nnn) s = .next ((s.push s.pc).jump (zextAddr nnn)) :=
  if_neg (mt (stackFull_iff s).1 hroom.ne)

theorem diagOf_call_of_full {s : State} (hfull : s.sp.val = 16) (nnn : Addr12) :
    diagOf (.call nnn) s = [.stackOverflow] :=
  if_pos ((stackFull_iff s).2 hfull)

theorem diagOf_call_of_room {s : State} (hroom : s.sp.val < 16) (nnn : Addr12) :
    diagOf (.call nnn) s = [] :=
  if_neg (mt (stackFull_iff s).1 hroom.ne)

/-- Settles O12: `sp` is 16, and `CALL` is an advance, or below 16, and it is a push and a jump. -/
theorem callPushesItsOwnAddress : Obligations.CallPushesItsOwnAddress := by
  intro s nnn
  have hsp : s.sp.val = 16 ∨ s.sp.val < 16 := by omega
  rcases hsp with hfull | hroom
  · obtain ⟨hregs, hmem, hstack, htimers, hscreen, hindex⟩ := onlyPc_advance s
    exact ⟨_, exec_call_of_full hfull nnn, hregs, hmem, htimers, hscreen, hindex,
      fun _ => ⟨hstack, advance_pc s, diagOf_call_of_full hfull nnn⟩,
      fun hlt => absurd hfull hlt.ne⟩
  · obtain ⟨hcount, hentries⟩ := push_spec s s.pc hroom
    exact ⟨_, exec_call_of_room hroom nnn, fun r _ => reg_push s s.pc r, sameMem_push s s.pc,
      ⟨push_DT s s.pc, push_ST s s.pc⟩, ⟨push_fb s s.pc, push_redraw s s.pc⟩,
      ⟨push_I s s.pc, push_key s s.pc, push_draws s s.pc⟩,
      fun hfull => absurd hfull hroom.ne,
      fun _ => ⟨hcount, toNat_zextAddr nnn, diagOf_call_of_room hroom nnn, hentries⟩⟩

/-! ### SYS and JP (R101, R102) -/

/-- A word of class 0 decodes by the whole word (R75). -/
theorem decodeWord_of_class0 {op : Word} (hclass : fieldCls op = 0x0) :
    decodeWord op = some (decodeClass0 op) := by
  rw [decodeWord, hclass]; rfl

/-- Class 0 without its two exact words is `SYS` (R75, R101). -/
theorem decodeClass0_eq_sys {op : Word} (hcls : op ≠ 0x00E0#16) (hret : op ≠ 0x00EE#16) :
    decodeClass0 op = .sys (fieldNNN op) := by
  rw [decodeClass0, if_neg hcls, if_neg hret]

theorem exec_sys (s : State) (nnn : Addr12) : exec (.sys nnn) s = .next (s.jump (zextAddr nnn)) := rfl

theorem exec_jp (s : State) (nnn : Addr12) : exec (.jp nnn) s = .next (s.jump (zextAddr nnn)) := rfl

/-- Settles O14: a word of class 0 but the two exact ones decodes to `SYS`, and `SYS` and `JP` are both the
jump to their zero-extended address. -/
theorem jumpsGoToTheirAddress : Obligations.JumpsGoToTheirAddress := by
  refine ⟨fun op hclass hcls hret => ?decode, fun s nnn => ?jumps⟩
  case decode => rw [decodeWord_of_class0 hclass, decodeClass0_eq_sys hcls hret]
  case jumps =>
    have hjump : (s.jump (zextAddr nnn)).pc.toNat = nnn.toNat := toNat_zextAddr nnn
    exact ⟨⟨_, exec_sys s nnn, hjump, onlyPc_jump s _, rfl⟩,
      ⟨_, exec_jp s nnn, hjump, onlyPc_jump s _, rfl⟩⟩

/-! ### JPV0 (R104) -/

theorem exec_jpv0 (s : State) (nnn : Addr12) :
    exec (.jpv0 nnn) s = .next (s.jump (jumpSum nnn (s.reg 0x0))) := rfl

/-- Settles O15: `JPV0` is the jump to a sum that fits 16 bits. -/
theorem indexedJumpAddsRegisterZero : Obligations.IndexedJumpAddsRegisterZero := fun s nnn =>
  ⟨_, exec_jpv0 s nnn, toNat_jumpSum nnn (s.reg 0x0), onlyPc_jump s _, rfl⟩

end Sys2Proof.Machine

/-! SUPPORT. The register-compare skips (R110 to R113): what a conditional skip writes and where it goes, and
what each comparison of the model decides; and from them the statement on SEI, SNEI, SE and SNE. -/

namespace Sys2Proof.Machine

/-! ### The conditional skip -/

/-- A conditional skip writes `pc` alone, whether it is taken or not. -/
theorem onlyPc_skipIf (s : State) (c : Bool) : OnlyPc s (s.skipIf c) :=
  match c with
  | true => onlyPc_jump s (s.pc + 4#16)
  | false => onlyPc_advance s

/-- Where a conditional skip goes, in terms of the proposition its test decides. -/
theorem skipIf_pc_of_iff (s : State) {c : Bool} {p : Prop} [Decidable p] (h : c = true ↔ p) :
    (s.skipIf c).pc = s.pc + (if p then 4#16 else 2#16) := by
  rw [skipIf_pc, if_congr h rfl rfl]

/-! ### The comparisons, on unsigned byte values -/

theorem byte_beq_iff_toNat_eq (a b : Byte) : (a == b) = true ↔ a.toNat = b.toNat :=
  beq_iff_eq.trans BitVec.toNat_inj.symm

theorem byte_bne_iff_toNat_ne (a b : Byte) : (a != b) = true ↔ a.toNat ≠ b.toNat :=
  bne_iff_ne.trans BitVec.toNat_ne_iff_ne.symm

/-! ### SEI, SNEI, SE and SNE -/

theorem exec_sei (s : State) (x : Nibble) (nn : Byte) :
    exec (.sei x nn) s = .next (s.skipIf (s.reg x == nn)) := rfl

theorem exec_snei (s : State) (x : Nibble) (nn : Byte) :
    exec (.snei x nn) s = .next (s.skipIf (s.reg x != nn)) := rfl

theorem exec_se (s : State) (x y : Nibble) :
    exec (.se x y) s = .next (s.skipIf (s.reg x == s.reg y)) := rfl

theorem exec_sne (s : State) (x y : Nibble) :
    exec (.sne x y) s = .next (s.skipIf (s.reg x != s.reg y)) := rfl

/-- Settles O16: each of the four is a conditional skip, and its test decides equality or difference of the
unsigned values. -/
theorem skipsCompareForEquality : Obligations.SkipsCompareForEquality := by
  refine fun s x y nn => ⟨?sei, ?snei, ?se, ?sne⟩
  case sei =>
    exact ⟨_, exec_sei s x nn, onlyPc_skipIf s _, rfl,
      skipIf_pc_of_iff s (byte_beq_iff_toNat_eq (s.reg x) nn)⟩
  case snei =>
    exact ⟨_, exec_snei s x nn, onlyPc_skipIf s _, rfl,
      skipIf_pc_of_iff s (byte_bne_iff_toNat_ne (s.reg x) nn)⟩
  case se =>
    exact ⟨_, exec_se s x y, onlyPc_skipIf s _, rfl,
      skipIf_pc_of_iff s (byte_beq_iff_toNat_eq (s.reg x) (s.reg y))⟩
  case sne =>
    exact ⟨_, exec_sne s x y, onlyPc_skipIf s _, rfl,
      skipIf_pc_of_iff s (byte_bne_iff_toNat_ne (s.reg x) (s.reg y))⟩

end Sys2Proof.Machine

/-! SUPPORT. Register loads and arithmetic (R120 to R122, R126, R127): the frames of a register write and of a
result written with its flag, the flag's two tests as numbers; and from them the statements on LDI, MOV, ADDI,
ADD and SUB. -/

namespace Sys2Proof.Machine

/-! ### One register written -/

/-- A register write and the advance after it change that register and `pc` alone, whatever the register. -/
theorem onlyRegs_setReg_advance (s : State) (x : Nibble) (b : Byte) :
    OnlyRegs [x] s (s.setReg x b).advance :=
  ⟨fun _ hr => State.reg_setReg_other s b (List.ne_of_not_mem_cons hr), fun _ => rfl, ⟨rfl, rfl⟩, ⟨rfl, rfl⟩,
    ⟨rfl, rfl⟩, rfl, rfl, rfl⟩

theorem reg_setReg_advance (s : State) (x : Nibble) (b : Byte) : (s.setReg x b).advance.reg x = b :=
  State.reg_setReg_same s x b

/-! ### LDI, MOV and ADDI (R120 to R122) -/

theorem exec_ldi (s : State) (x : Nibble) (nn : Byte) :
    exec (.ldi x nn) s = .next (s.setReg x nn).advance := rfl

theorem exec_mov (s : State) (x y : Nibble) :
    exec (.mov x y) s = .next (s.setReg x (s.reg y)).advance := rfl

theorem exec_addi (s : State) (x : Nibble) (nn : Byte) :
    exec (.addi x nn) s = .next (s.setReg x (s.reg x + nn)).advance := rfl

/-- Settles O18: LDI and MOV are each one register write and an advance. -/
theorem loadsCopyTheirOperand : Obligations.LoadsCopyTheirOperand := by
  refine fun s x y nn => ⟨?ldi, ?mov⟩
  case ldi =>
    exact ⟨_, exec_ldi s x nn, reg_setReg_advance s x nn, rfl, onlyRegs_setReg_advance s x nn, rfl⟩
  case mov =>
    exact ⟨_, exec_mov s x y, reg_setReg_advance s x (s.reg y), rfl,
      onlyRegs_setReg_advance s x (s.reg y), rfl⟩

/-- Settles O19: ADDI is one register write of a byte sum, so `VF` is a register it leaves alone. -/
theorem addImmediateSetsNoFlag : Obligations.AddImmediateSetsNoFlag := by
  intro s x nn
  refine ⟨_, exec_addi s x nn, ?sum, rfl, onlyRegs_setReg_advance s x _, ?flag, rfl⟩
  case sum => rw [reg_setReg_advance, BitVec.toNat_add]
  case flag => exact fun hx => State.reg_setReg_other s _ hx.symm

/-! ### A result written with its flag (R119) -/

/-- A result written with its flag changes the destination, `VF` and `pc` alone. -/
theorem onlyRegs_writeResultThenFlag_advance (s : State) (x : Nibble) (b : Byte) (c : Bool) :
    OnlyRegs [x, vf] s (s.writeResultThenFlag x b c).advance := by
  refine ⟨fun r hr => ?_, fun _ => rfl, ⟨rfl, rfl⟩, ⟨rfl, rfl⟩, ⟨rfl, rfl⟩, rfl, rfl, rfl⟩
  obtain ⟨hx, hvf⟩ : r ≠ x ∧ r ≠ vf := by simpa using hr
  rw [reg_advance, reg_writeResultThenFlag, if_neg hvf, if_neg hx]

/-- `VF` holds the flag, for every destination. -/
theorem vf_writeResultThenFlag_advance (s : State) (x : Nibble) (b : Byte) (c : Bool) :
    (s.writeResultThenFlag x b c).advance.reg vf = flagByte c :=
  (reg_writeResultThenFlag s x vf b c).trans (if_pos rfl)

/-- A destination other than `VF` holds the result. -/
theorem dest_writeResultThenFlag_advance (s : State) {x : Nibble} (hx : x ≠ vf) (b : Byte) (c : Bool) :
    (s.writeResultThenFlag x b c).advance.reg x = b := by
  rw [reg_advance, reg_writeResultThenFlag, if_neg hx, if_pos rfl]

/-! ### The two tests as numbers (R118) -/

theorem carryOut_iff (a b : Byte) : carryOut a b = true ↔ 255 < a.toNat + b.toNat := decide_eq_true_iff

theorem noBorrow_iff (a b : Byte) : noBorrow a b = true ↔ b.toNat ≤ a.toNat := decide_eq_true_iff

theorem toNat_flagByte_carryOut (a b : Byte) :
    (flagByte (carryOut a b)).toNat = if 255 < a.toNat + b.toNat then 1 else 0 := by
  rw [flagByte_toNat, if_congr (carryOut_iff a b) rfl rfl]

theorem toNat_flagByte_noBorrow (a b : Byte) :
    (flagByte (noBorrow a b)).toNat = if b.toNat ≤ a.toNat then 1 else 0 := by
  rw [flagByte_toNat, if_congr (noBorrow_iff a b) rfl rfl]

/-- A byte difference borrows 256 before it is reduced. -/
theorem byte_toNat_sub (a b : Byte) : (a - b).toNat = (256 + a.toNat - b.toNat) % 256 := by
  rw [BitVec.toNat_sub, Nat.sub_add_comm b.isLt.le]

/-! ### ADD and SUB (R126, R127) -/

theorem exec_add (s : State) (x y : Nibble) :
    exec (.add x y) s =
      .next (s.writeResultThenFlag x (s.reg x + s.reg y) (carryOut (s.reg x) (s.reg y))).advance := rfl

theorem exec_sub (s : State) (x y : Nibble) :
    exec (.sub x y) s =
      .next (s.writeResultThenFlag x (s.reg x - s.reg y) (noBorrow (s.reg x) (s.reg y))).advance := rfl

/-- Settles O21: ADD writes the byte sum and then the carry, so for `X = 15` the carry remains (R119, D8). -/
theorem addSetsCarry : Obligations.AddSetsCarry := by
  intro s x y
  refine ⟨_, exec_add s x y, ?carry, fun hx => ?sum, rfl, onlyRegs_writeResultThenFlag_advance s x _ _, rfl⟩
  case carry => rw [vf_writeResultThenFlag_advance, toNat_flagByte_carryOut]
  case sum => rw [dest_writeResultThenFlag_advance s hx, BitVec.toNat_add]

/-- Settles O22: SUB writes the byte difference and then NOT borrow, so for `X = 15` NOT borrow remains (R119,
D8). -/
theorem subtractSetsNotBorrow : Obligations.SubtractSetsNotBorrow := by
  intro s x y
  refine ⟨_, exec_sub s x y, ?notBorrow, fun hx => ?difference, rfl,
    onlyRegs_writeResultThenFlag_advance s x _ _, rfl⟩
  case notBorrow => rw [vf_writeResultThenFlag_advance, toNat_flagByte_noBorrow]
  case difference => rw [dest_writeResultThenFlag_advance s hx, byte_toNat_sub]

end Sys2Proof.Machine

/-! SUPPORT. Loading the index register (R140): `LDA` writes its zero-extended address to `I` and advances. -/

namespace Sys2Proof.Machine

/-! ### LDA (R140) -/

theorem exec_lda (s : State) (nnn : Addr12) :
    exec (.lda nnn) s = .next { s with I := zextAddr nnn }.advance := rfl

/-- Settles O28: the advance after the load writes `pc` alone, and the load itself writes `I` alone, so what
the advance leaves unchanged is as it was in `s`. -/
theorem loadAddressWritesIndex : Obligations.LoadAddressWritesIndex := by
  intro s nnn
  obtain ⟨hregs, hmem, hstack, htimers, hscreen, -, hkey, hdraws⟩ :=
    onlyPc_advance { s with I := zextAddr nnn }
  exact ⟨_, exec_lda s nnn, toNat_zextAddr nnn, advance_pc _, hregs, hmem, hstack, htimers, hscreen, hkey,
    hdraws, rfl⟩

end Sys2Proof.Machine

/-! SUPPORT. Clearing the screen (R150): `CLS` writes the blank screen and the redraw flag and advances. -/

namespace Sys2Proof.Machine

/-! ### CLS (R150) -/

theorem exec_cls (s : State) :
    exec .cls s = .next { s with fb := blankScreen, redraw := true }.advance := rfl

/-- Settles O36: every pixel of the blank screen is off; the clearing writes the framebuffer and the redraw
flag alone, and the advance after it writes `pc` alone, so what the advance leaves unchanged, but for the
screen, is as it was in `s`. -/
theorem clearScreenTurnsEveryPixelOff : Obligations.ClearScreenTurnsEveryPixelOff := by
  intro s
  obtain ⟨hregs, hmem, hstack, htimers, -, hindexKeysDraws⟩ :=
    onlyPc_advance { s with fb := blankScreen, redraw := true }
  exact ⟨_, exec_cls s, pixel_blankScreen, rfl, advance_pc _, hregs, hmem, hstack, htimers, hindexKeysDraws,
    rfl⟩

end Sys2Proof.Machine

/-! SUPPORT. The keypad wait and the timer instructions (R162 to R165): what `KEY` answers when the scan finds
no key and when it finds one, and the register or timer each timer instruction writes; and from them the
statements on KEY, GDT, SDT and SST. -/

namespace Sys2Proof.Machine

/-! ### KEY (R162) -/

/-- The least pressed key, given by its number in the keypad image, is what the scan answers. -/
theorem lowestKey?_eq_some_of_least {s : State} {k : Fin 16} (hpressed : s.key[k] = true)
    (hleast : ∀ j : Fin 16, j < k → s.key[j] = false) : s.lowestKey? = some k.val :=
  (lowestKey?_eq_some s k.val).2 ⟨k.isLt, hpressed, fun j hj => hleast ⟨j, hj.trans k.isLt⟩ hj⟩

theorem exec_key (s : State) (x : Nibble) : exec (.key x) s = execKey x s := rfl

theorem outcomeOf_key (s : State) (x : Nibble) :
    outcomeOf (.key x) s = if s.lowestKey?.isNone then .waitKey else .ok := rfl

/-- `KEY` with no key found leaves the state as it is, `pc` included. -/
theorem exec_key_of_none {s : State} (hscan : s.lowestKey? = none) (x : Nibble) :
    exec (.key x) s = .next s := by
  rw [exec_key, execKey, hscan]

/-- `KEY` with a key found is one register write and an advance. -/
theorem exec_key_of_some {s : State} {k : Nat} (hscan : s.lowestKey? = some k) (x : Nibble) :
    exec (.key x) s = .next (s.setReg x (BitVec.ofNat 8 k)).advance := by
  rw [exec_key, execKey, hscan]

/-- `KEY` waits exactly when the scan finds no key. -/
theorem outcomeOf_key_eq_waitKey_iff (s : State) (x : Nibble) :
    outcomeOf (.key x) s = .waitKey ↔ s.lowestKey? = none := by
  simp [outcomeOf_key]

/-- A key number fits the byte it is written to. -/
theorem toNat_ofNat_keyNumber (k : Fin 16) : (BitVec.ofNat 8 k.val).toNat = k.val :=
  (BitVec.toNat_ofNat k.val 8).trans (Nat.mod_eq_of_lt (k.isLt.trans (by decide)))

/-- Settles O41: the scan answers nothing when no key is pressed, and then `KEY` waits; it answers the least
pressed key when there is one, and then `KEY` writes it as a byte and advances. -/
theorem keyWaitsForTheLowestPressedKey : Obligations.KeyWaitsForTheLowestPressedKey := by
  refine fun s x => ⟨fun hnone => ?wait, fun k hpressed hleast => ?write⟩
  case wait =>
    have hscan : s.lowestKey? = none := (lowestKey?_eq_none s).2 hnone
    exact ⟨exec_key_of_none hscan x, (outcomeOf_key_eq_waitKey_iff s x).2 hscan, rfl⟩
  case write =>
    have hscan : s.lowestKey? = some k.val := lowestKey?_eq_some_of_least hpressed hleast
    refine ⟨_, exec_key_of_some hscan x, ?value, rfl, onlyRegs_setReg_advance s x _, ?outcome, rfl⟩
    case value => rw [reg_setReg_advance, toNat_ofNat_keyNumber]
    case outcome => simp [outcomeOf_key_eq_waitKey_iff, hscan]

/-! ### GDT, SDT and SST (R163 to R165) -/

theorem exec_gdt (s : State) (x : Nibble) : exec (.gdt x) s = .next (s.setReg x s.DT).advance := rfl

theorem exec_sdt (s : State) (x : Nibble) : exec (.sdt x) s = .next { s with DT := s.reg x }.advance := rfl

theorem exec_sst (s : State) (x : Nibble) : exec (.sst x) s = .next { s with ST := s.reg x }.advance := rfl

/-- Settles O42: GDT is one register write and an advance; SDT and SST each write their timer alone, and the
advance after it writes `pc` alone, so what the advance leaves unchanged, but for that timer, is as it was
in `s`. -/
theorem timerInstructionsCopyTheTimers : Obligations.TimerInstructionsCopyTheTimers := by
  refine fun s x => ⟨?gdt, ?sdt, ?sst⟩
  case gdt =>
    exact ⟨_, exec_gdt s x, reg_setReg_advance s x s.DT, rfl, onlyRegs_setReg_advance s x s.DT, rfl⟩
  case sdt =>
    obtain ⟨hregs, hmem, hstack, ⟨hDT, hST⟩, hscreen, hindex⟩ := onlyPc_advance { s with DT := s.reg x }
    exact ⟨_, exec_sdt s x, hDT, hST, advance_pc _, hregs, hmem, hstack, hscreen, hindex, rfl⟩
  case sst =>
    obtain ⟨hregs, hmem, hstack, ⟨hDT, hST⟩, hscreen, hindex⟩ := onlyPc_advance { s with ST := s.reg x }
    exact ⟨_, exec_sst s x, hST, hDT, advance_pc _, hregs, hmem, hstack, hscreen, hindex, rfl⟩

end Sys2Proof.Machine

/-! SUPPORT. The timers' countdown and the sound cue (R180, R181): where the sound timer stands after any
number of TICKs in a row, and from it the statement on the cue. -/

namespace Sys2Proof.Machine

/-- On naturals the countdown is truncated subtraction: `t - 1` does not wrap, because 0 is caught first. -/
theorem toNat_countDown (t : Byte) : (countDown t).toNat = t.toNat - 1 := by
  unfold countDown
  split
  case isTrue hzero => subst hzero; rfl
  case isFalse hpos => bv_omega

theorem tick_ST (s : State) : (tick s).ST = countDown s.ST := rfl

/-- The cue is raised from `ST = 1` (R181). -/
theorem soundCue_iff (s : State) : soundCue s = true ↔ s.ST.toNat = 1 := by
  rw [soundCue, beq_iff_eq, ← BitVec.toNat_inj]
  rfl

/-- TICKs in a row take the sound timer down by their number, stopping at zero. -/
theorem toNat_ST_repeat_tick (s : State) (j : Nat) :
    (Nat.repeat tick j s).ST.toNat = s.ST.toNat - j := by
  induction j with
  | zero => rfl
  | succ j ih =>
    calc (tick (Nat.repeat tick j s)).ST.toNat
        = (Nat.repeat tick j s).ST.toNat - 1 := by rw [tick_ST, toNat_countDown]
      _ = s.ST.toNat - (j + 1) := by rw [ih, Nat.sub_sub]

/-- Settles O46: the cue after `j` TICKs says that the timer, by then `ST - j`, stands at 1; subtraction
stops at zero, so that is `ST = j + 1` and no other value. -/
theorem soundCueComesExactlyOnce : Obligations.SoundCueComesExactlyOnce := by
  intro s j
  rw [soundCue_iff, toNat_ST_repeat_tick]
  omega

end Sys2Proof.Machine

/-! SUPPORT. The decoder and the encoder are inverse bijections (R75, R76, R84): what a class or a selector
decodes to, how a word is rebuilt from its class and its fields; and from them the statements on the opcode
map, on the two round trips and on the reserved words. -/

namespace Sys2Proof.Machine

/-! ### Decoding what was encoded -/

/-- A `SYS` that is well-formed is neither of the two exact words of class 0. -/
theorem decodeWord_encode_sys {nnn : Addr12} (hwf : (Instr.sys nnn).wellFormed = true) :
    decodeWord (encode (.sys nnn)) = some (.sys nnn) := by
  obtain ⟨hcls, hret⟩ : nnn ≠ 0x0E0#12 ∧ nnn ≠ 0x0EE#12 := by simpa [Instr.wellFormed] using hwf
  have hclass : fieldCls (encode (.sys nnn)) = 0x0 := fieldCls_wordNNN 0x0 nnn
  have hfield : fieldNNN (encode (.sys nnn)) = nnn := fieldNNN_wordNNN 0x0 nnn
  rw [decodeWord_of_class0 hclass, decodeClass0_eq_sys, hfield]
  · exact fun h => hcls (hfield.symm.trans (congrArg fieldNNN h))
  · exact fun h => hret (hfield.symm.trans (congrArg fieldNNN h))

/-- The decoder reads an instruction back from its word. -/
theorem decodeWord_encode {i : Instr} (hwf : i.wellFormed = true) : decodeWord (encode i) = some i := by
  cases i with
  | cls => rfl
  | ret => rfl
  | sys nnn => exact decodeWord_encode_sys hwf
  | _ => simp [encode, decodeWord, decodeClass8, decodeClassE, decodeClassF]

/-- Two bytes and what follows them decode as the word they form. -/
theorem decode_of_decodeWord {first second : Byte} {i : Instr}
    (h : decodeWord (wordOfBytes first second) = some i) (rest : List Byte) :
    decode (first :: second :: rest) = .ok (i, rest) := by
  rw [decode, h]

/-- Settles O2: the fields read back from an encoding are the operands, so the class and its selector choose
the row again; and the two bytes of a word form that word. -/
theorem decodeOfEncodeIsTheInstruction : Obligations.DecodeOfEncodeIsTheInstruction := by
  intro i rest hwf
  refine ⟨decodeWord_encode hwf, decode_of_decodeWord ?_ rest⟩
  rw [wordOfBytes_bytes, decodeWord_encode hwf]

/-! ### Encoding what was decoded -/

/-- A recognized selector of class 8 is the one its instruction encodes. -/
theorem encode_of_decodeClass8 {x y n : Nibble} {i : Instr} (h : decodeClass8 x y n = some i) :
    encode i = wordXYN 0x8 x y n ∧ i.wellFormed = true := by
  unfold decodeClass8 at h
  split at h <;> cases h <;> exact ⟨rfl, rfl⟩

theorem encode_of_decodeClassE {x : Nibble} {nn : Byte} {i : Instr} (h : decodeClassE x nn = some i) :
    encode i = wordXNN 0xE x nn ∧ i.wellFormed = true := by
  unfold decodeClassE at h
  split at h <;> cases h <;> exact ⟨rfl, rfl⟩

theorem encode_of_decodeClassF {x : Nibble} {nn : Byte} {i : Instr} (h : decodeClassF x nn = some i) :
    encode i = wordXNN 0xF x nn ∧ i.wellFormed = true := by
  unfold decodeClassF at h
  split at h <;> cases h <;> exact ⟨rfl, rfl⟩

/-- A word of class 0 is the encoding of what it decodes to; it is `SYS` only where it is neither of the two
exact words. -/
theorem encode_decodeClass0 {op : Word} (hclass : fieldCls op = 0x0) :
    encode (decodeClass0 op) = op ∧ (decodeClass0 op).wellFormed = true := by
  have hword : wordNNN 0x0 (fieldNNN op) = op := hclass ▸ wordNNN_fields op
  by_cases hcls : op = 0x00E0#16
  · subst hcls; decide
  by_cases hret : op = 0x00EE#16
  · subst hret; decide
  rw [decodeClass0_eq_sys hcls hret]
  refine ⟨hword, ?_⟩
  have hE0 : fieldNNN op ≠ 0x0E0#12 := fun h => hcls (by rw [← hword, h]; rfl)
  have hEE : fieldNNN op ≠ 0x0EE#12 := fun h => hret (by rw [← hword, h]; rfl)
  simp [Instr.wellFormed, hE0, hEE]

/-! A word rebuilt from its class and the fields of each layout (R73). -/

theorem wordNNN_of_class {op : Word} {c : Nibble} (h : fieldCls op = c) : wordNNN c (fieldNNN op) = op :=
  h ▸ wordNNN_fields op

theorem wordXNN_of_class {op : Word} {c : Nibble} (h : fieldCls op = c) :
    wordXNN c (fieldX op) (fieldNN op) = op :=
  h ▸ wordXNN_fields op

theorem wordXYN_of_class {op : Word} {c : Nibble} (h : fieldCls op = c) :
    wordXYN c (fieldX op) (fieldY op) (fieldN op) = op :=
  h ▸ wordXYN_fields op

theorem wordXYN_of_class_N {op : Word} {c n : Nibble} (h : fieldCls op = c) (hN : fieldN op = n) :
    wordXYN c (fieldX op) (fieldY op) n = op :=
  hN ▸ wordXYN_of_class h

/-- A recognized word is the encoding of a well-formed instruction: in each class the word is rebuilt from
the class and the fields its row reads. -/
theorem encode_of_decodeWord {op : Word} {i : Instr} (h : decodeWord op = some i) :
    encode i = op ∧ i.wellFormed = true := by
  unfold decodeWord at h
  split at h
  case h_1 hclass => cases h; exact encode_decodeClass0 hclass
  case h_2 hclass => cases h; exact ⟨wordNNN_of_class hclass, rfl⟩
  case h_3 hclass => cases h; exact ⟨wordNNN_of_class hclass, rfl⟩
  case h_4 hclass => cases h; exact ⟨wordXNN_of_class hclass, rfl⟩
  case h_5 hclass => cases h; exact ⟨wordXNN_of_class hclass, rfl⟩
  case h_6 hclass =>
    obtain ⟨hN, h⟩ := Option.ite_none_right_eq_some.1 h
    cases h; exact ⟨wordXYN_of_class_N hclass hN, rfl⟩
  case h_7 hclass => cases h; exact ⟨wordXNN_of_class hclass, rfl⟩
  case h_8 hclass => cases h; exact ⟨wordXNN_of_class hclass, rfl⟩
  case h_9 hclass => exact wordXYN_of_class hclass ▸ encode_of_decodeClass8 h
  case h_10 hclass =>
    obtain ⟨hN, h⟩ := Option.ite_none_right_eq_some.1 h
    cases h; exact ⟨wordXYN_of_class_N hclass hN, rfl⟩
  case h_11 hclass => cases h; exact ⟨wordNNN_of_class hclass, rfl⟩
  case h_12 hclass => cases h; exact ⟨wordNNN_of_class hclass, rfl⟩
  case h_13 hclass => cases h; exact ⟨wordXNN_of_class hclass, rfl⟩
  case h_14 hclass => cases h; exact ⟨wordXYN_of_class hclass, rfl⟩
  case h_15 hclass => exact wordXNN_of_class hclass ▸ encode_of_decodeClassE h
  case h_16 hclass => exact wordXNN_of_class hclass ▸ encode_of_decodeClassF h
  case h_17 => cases h

/-- Settles O3. -/
theorem encodeOfDecodeIsTheWord : Obligations.EncodeOfDecodeIsTheWord :=
  fun _ _ => encode_of_decodeWord

/-! ### The reserved words (R79) -/

theorem decodeClass8_eq_none_iff (x y n : Nibble) :
    decodeClass8 x y n = none ↔ 8 ≤ n.toNat ∧ n ≠ 0xE := by
  unfold decodeClass8
  split
  case h_10 =>
    simp only [imp_false, true_iff] at *
    bv_omega
  all_goals simp

theorem decodeClassE_eq_none_iff (x : Nibble) (nn : Byte) :
    decodeClassE x nn = none ↔ nn ∉ [(0x9E : Byte), 0xA1] := by
  unfold decodeClassE
  split <;> simp_all

theorem decodeClassF_eq_none_iff (x : Nibble) (nn : Byte) :
    decodeClassF x nn = none ↔
      nn ∉ [(0x07 : Byte), 0x0A, 0x15, 0x18, 0x1E, 0x29, 0x33, 0x55, 0x65] := by
  unfold decodeClassF
  split <;> simp_all

/-- Settles O4: classes 5 and 9 ask for `N` 0, classes 8, E and F for a selector of their own, and every word
of another class is recognized. -/
theorem unrecognizedWordsAreTheReservedOnes : Obligations.UnrecognizedWordsAreTheReservedOnes := by
  intro op
  unfold decodeWord
  split
  case h_17 => exfalso; simp only [imp_false] at *; bv_omega
  all_goals
    next hclass =>
      simp [hclass, decodeClass8_eq_none_iff, decodeClassE_eq_none_iff, decodeClassF_eq_none_iff]

/-! ### The rows of the opcode map (R76) -/

theorem decodeWord_of_class1 {op : Word} (h : fieldCls op = 0x1) :
    decodeWord op = some (.jp (fieldNNN op)) := by
  rw [decodeWord, h]; rfl

theorem decodeWord_of_class2 {op : Word} (h : fieldCls op = 0x2) :
    decodeWord op = some (.call (fieldNNN op)) := by
  rw [decodeWord, h]; rfl

theorem decodeWord_of_class3 {op : Word} (h : fieldCls op = 0x3) :
    decodeWord op = some (.sei (fieldX op) (fieldNN op)) := by
  rw [decodeWord, h]; rfl

theorem decodeWord_of_class4 {op : Word} (h : fieldCls op = 0x4) :
    decodeWord op = some (.snei (fieldX op) (fieldNN op)) := by
  rw [decodeWord, h]; rfl

theorem decodeWord_of_class5 {op : Word} (h : fieldCls op = 0x5) (hN : fieldN op = 0x0) :
    decodeWord op = some (.se (fieldX op) (fieldY op)) := by
  rw [decodeWord, h]; exact if_pos hN

theorem decodeWord_of_class6 {op : Word} (h : fieldCls op = 0x6) :
    decodeWord op = some (.ldi (fieldX op) (fieldNN op)) := by
  rw [decodeWord, h]; rfl

theorem decodeWord_of_class7 {op : Word} (h : fieldCls op = 0x7) :
    decodeWord op = some (.addi (fieldX op) (fieldNN op)) := by
  rw [decodeWord, h]; rfl

theorem decodeWord_of_class8 {op : Word} (h : fieldCls op = 0x8) :
    decodeWord op = decodeClass8 (fieldX op) (fieldY op) (fieldN op) := by
  rw [decodeWord, h]; rfl

theorem decodeWord_of_class9 {op : Word} (h : fieldCls op = 0x9) (hN : fieldN op = 0x0) :
    decodeWord op = some (.sne (fieldX op) (fieldY op)) := by
  rw [decodeWord, h]; exact if_pos hN

theorem decodeWord_of_classA {op : Word} (h : fieldCls op = 0xA) :
    decodeWord op = some (.lda (fieldNNN op)) := by
  rw [decodeWord, h]; rfl

theorem decodeWord_of_classB {op : Word} (h : fieldCls op = 0xB) :
    decodeWord op = some (.jpv0 (fieldNNN op)) := by
  rw [decodeWord, h]; rfl

theorem decodeWord_of_classC {op : Word} (h : fieldCls op = 0xC) :
    decodeWord op = some (.rnd (fieldX op) (fieldNN op)) := by
  rw [decodeWord, h]; rfl

theorem decodeWord_of_classD {op : Word} (h : fieldCls op = 0xD) :
    decodeWord op = some (.drw (fieldX op) (fieldY op) (fieldN op)) := by
  rw [decodeWord, h]; rfl

theorem decodeWord_of_classE {op : Word} (h : fieldCls op = 0xE) :
    decodeWord op = decodeClassE (fieldX op) (fieldNN op) := by
  rw [decodeWord, h]; rfl

theorem decodeWord_of_classF {op : Word} (h : fieldCls op = 0xF) :
    decodeWord op = decodeClassF (fieldX op) (fieldNN op) := by
  rw [decodeWord, h]; rfl

/-! The class and the selector of a word that meets a row's mask and match. -/

theorem class_of_mask {op : Word} {c : Nibble} (h : op &&& 0xF000#16 = wordXNN c 0 0) :
    fieldCls op = c := by
  rw [and_class_mask] at h
  simpa using congrArg fieldCls h

theorem class_N_of_mask {op : Word} {c n : Nibble} (h : op &&& 0xF00F#16 = wordXYN c 0 0 n) :
    fieldCls op = c ∧ fieldN op = n := by
  rw [and_class_N_mask] at h
  exact ⟨by simpa using congrArg fieldCls h, by simpa using congrArg fieldN h⟩

theorem class_NN_of_mask {op : Word} {c : Nibble} {nn : Byte} (h : op &&& 0xF0FF#16 = wordXNN c 0 nn) :
    fieldCls op = c ∧ fieldNN op = nn := by
  rw [and_class_NN_mask] at h
  exact ⟨by simpa using congrArg fieldCls h, by simpa using congrArg fieldNN h⟩

/-! What a row of class 8, E or F decodes to, by its selector. -/

theorem decodeWord_of_mask8 {op : Word} {n : Nibble} (h : op &&& 0xF00F#16 = wordXYN 0x8 0 0 n) :
    decodeWord op = decodeClass8 (fieldX op) (fieldY op) n := by
  obtain ⟨hclass, hN⟩ := class_N_of_mask h
  rw [decodeWord_of_class8 hclass, hN]

theorem decodeWord_of_maskE {op : Word} {nn : Byte} (h : op &&& 0xF0FF#16 = wordXNN 0xE 0 nn) :
    decodeWord op = decodeClassE (fieldX op) nn := by
  obtain ⟨hclass, hNN⟩ := class_NN_of_mask h
  rw [decodeWord_of_classE hclass, hNN]

theorem decodeWord_of_maskF {op : Word} {nn : Byte} (h : op &&& 0xF0FF#16 = wordXNN 0xF 0 nn) :
    decodeWord op = decodeClassF (fieldX op) nn := by
  obtain ⟨hclass, hNN⟩ := class_NN_of_mask h
  rw [decodeWord_of_classF hclass, hNN]

/-- Settles O1: mask and match of a row give the class of the word, and its selector where the row has one;
the class, and then the selector, choose the row. -/
theorem decoderFollowsTheOpcodeMap : Obligations.DecoderFollowsTheOpcodeMap := by
  intro op
  refine ⟨fun h => h ▸ rfl, fun h => h ▸ rfl, fun h hcls hret => ?sys,
    fun h => decodeWord_of_class1 (class_of_mask h), fun h => decodeWord_of_class2 (class_of_mask h),
    fun h => decodeWord_of_class3 (class_of_mask h), fun h => decodeWord_of_class4 (class_of_mask h),
    fun h => ?se, fun h => decodeWord_of_class6 (class_of_mask h),
    fun h => decodeWord_of_class7 (class_of_mask h),
    fun h => decodeWord_of_mask8 (n := 0x0) h, fun h => decodeWord_of_mask8 (n := 0x1) h,
    fun h => decodeWord_of_mask8 (n := 0x2) h, fun h => decodeWord_of_mask8 (n := 0x3) h,
    fun h => decodeWord_of_mask8 (n := 0x4) h, fun h => decodeWord_of_mask8 (n := 0x5) h,
    fun h => decodeWord_of_mask8 (n := 0x6) h, fun h => decodeWord_of_mask8 (n := 0x7) h,
    fun h => decodeWord_of_mask8 (n := 0xE) h,
    fun h => ?sne, fun h => decodeWord_of_classA (class_of_mask h),
    fun h => decodeWord_of_classB (class_of_mask h), fun h => decodeWord_of_classC (class_of_mask h),
    fun h => decodeWord_of_classD (class_of_mask h),
    fun h => decodeWord_of_maskE (nn := 0x9E) h, fun h => decodeWord_of_maskE (nn := 0xA1) h,
    fun h => decodeWord_of_maskF (nn := 0x07) h, fun h => decodeWord_of_maskF (nn := 0x0A) h,
    fun h => decodeWord_of_maskF (nn := 0x15) h, fun h => decodeWord_of_maskF (nn := 0x18) h,
    fun h => decodeWord_of_maskF (nn := 0x1E) h, fun h => decodeWord_of_maskF (nn := 0x29) h,
    fun h => decodeWord_of_maskF (nn := 0x33) h, fun h => decodeWord_of_maskF (nn := 0x55) h,
    fun h => decodeWord_of_maskF (nn := 0x65) h⟩
  case sys =>
    rw [decodeWord_of_class0 (class_of_mask h), decodeClass0_eq_sys hcls hret]; rfl
  case se =>
    obtain ⟨hclass, hN⟩ := class_N_of_mask (c := 0x5) (n := 0x0) h
    exact decodeWord_of_class5 hclass hN
  case sne =>
    obtain ⟨hclass, hN⟩ := class_N_of_mask (c := 0x9) (n := 0x0) h
    exact decodeWord_of_class9 hclass hN

/-- Settles O5: each of the words is a closed term the decoder evaluates. -/
theorem sampleWordsDecode : Obligations.SampleWordsDecode :=
  ⟨rfl, rfl, rfl, rfl, rfl, rfl, rfl⟩

end Sys2Proof.Machine

/-! SUPPORT. What one instruction can do (table R76): one equation for each meaning not stated above, and one
relation, `Effect`, that says for every instruction by which operation it answers. Frames over all instructions
are read off that relation; from it the statements on totality, on the advance of `pc`, on the writers of `VF`
and on the writers of each storage. -/

namespace Sys2Proof.Machine

/-! ### One equation per meaning -/

theorem exec_or (s : State) (x y : Nibble) :
    exec (.or x y) s = .next (s.setReg x (s.reg x ||| s.reg y)).advance := rfl

theorem exec_and (s : State) (x y : Nibble) :
    exec (.and x y) s = .next (s.setReg x (s.reg x &&& s.reg y)).advance := rfl

theorem exec_xor (s : State) (x y : Nibble) :
    exec (.xor x y) s = .next (s.setReg x (s.reg x ^^^ s.reg y)).advance := rfl

theorem exec_shr (s : State) (x y : Nibble) :
    exec (.shr x y) s =
      .next (s.writeResultThenFlag x (s.reg x >>> 1) (shiftedOutRight (s.reg x))).advance := rfl

theorem exec_subn (s : State) (x y : Nibble) :
    exec (.subn x y) s =
      .next (s.writeResultThenFlag x (s.reg y - s.reg x) (noBorrow (s.reg y) (s.reg x))).advance := rfl

theorem exec_shl (s : State) (x y : Nibble) :
    exec (.shl x y) s =
      .next (s.writeResultThenFlag x (s.reg x <<< 1) (shiftedOutLeft (s.reg x))).advance := rfl

theorem exec_rnd (s : State) (x : Nibble) (nn : Byte) :
    exec (.rnd x nn) s = .next (rndWith s.rndInput x nn s).countDraw := rfl

theorem exec_adda (s : State) (x : Nibble) :
    exec (.adda x) s = .next (s.addIndex (s.reg x).toNat).advance := rfl

theorem exec_fnt (s : State) (x : Nibble) :
    exec (.fnt x) s = .next { s with I := fontAddr (s.reg x) }.advance := rfl

theorem exec_bcd (s : State) (x : Nibble) :
    exec (.bcd x) s = .next (s.storeBytes (bcdDigits (s.reg x))).advance := rfl

theorem exec_stm (s : State) (x : Nibble) :
    exec (.stm x) s = .next ((s.storeBytes (s.lowRegs x)).addIndex (regCount x)).advance := rfl

/-- The register file after `LDM` (R145). -/
abbrev State.loadLow (s : State) (x : Nibble) : State :=
  { s with v := loadRegs s.mem s.I.toNat (regCount x) s.v }

theorem exec_ldm (s : State) (x : Nibble) :
    exec (.ldm x) s = .next ((s.loadLow x).addIndex (regCount x)).advance := rfl

/-- The framebuffer and the collision a `DRW` leaves (R151). -/
abbrev State.drawn (s : State) (x y n : Nibble) : Drawing :=
  drawSprite s.mem s.I.toNat (s.reg x) (s.reg y) n.toNat s.fb

theorem exec_drw (s : State) (x y n : Nibble) :
    exec (.drw x y n) s =
      .next ({ s with fb := (s.drawn x y n).1, redraw := true }.setReg vf
        (flagByte (s.drawn x y n).2)).advance := rfl

/-- `RET` on an empty stack only advances `pc` (R100). -/
theorem exec_ret_of_empty {s : State} (hempty : s.sp.val = 0) : exec .ret s = .next s.advance :=
  if_pos ((stackEmpty_iff s).2 hempty)

/-- `RET` on a stack in use pops and goes past the popped entry (R100). -/
theorem exec_ret_of_used {s : State} (hused : 0 < s.sp.val) :
    exec .ret s = .next (s.pop.jump (s.topEntry + 2#16)) :=
  if_neg (mt (stackEmpty_iff s).1 hused.ne')

theorem exec_skp_of_key {s : State} {x : Nibble} {p : Bool}
    (hkey : s.keyPressed? (s.reg x).toNat = some p) : exec (.skp x) s = .next (s.skipIf p) := by
  change execSkp x s = _
  rw [execSkp, hkey]

theorem exec_skp_of_no_key {s : State} {x : Nibble} (hkey : s.keyPressed? (s.reg x).toNat = none) :
    exec (.skp x) s = .next s.advance := by
  change execSkp x s = _
  rw [execSkp, hkey]

theorem exec_sknp_of_key {s : State} {x : Nibble} {p : Bool}
    (hkey : s.keyPressed? (s.reg x).toNat = some p) : exec (.sknp x) s = .next (s.skipIf (! p)) := by
  change execSknp x s = _
  rw [execSknp, hkey]

theorem exec_sknp_of_no_key {s : State} {x : Nibble} (hkey : s.keyPressed? (s.reg x).toNat = none) :
    exec (.sknp x) s = .next s.advance := by
  change execSknp x s = _
  rw [execSknp, hkey]

/-! ### What an instruction can do -/

/-- The instructions whose whole result is one general register, with that register. -/
def WritesReg (i : Instr) (x : Nibble) : Prop :=
  (∃ y, i = .mov x y ∨ i = .or x y ∨ i = .and x y ∨ i = .xor x y) ∨
    (∃ nn, i = .ldi x nn ∨ i = .addi x nn) ∨ i = .gdt x ∨ i = .key x

/-- The instructions that write a result and then its flag (R119), with the result's register. -/
def WritesFlag (i : Instr) (x : Nibble) : Prop :=
  ∃ y, i = .add x y ∨ i = .sub x y ∨ i = .subn x y ∨ i = .shr x y ∨ i = .shl x y

/-- The instructions whose whole result is the index register (R140 to R142). -/
def WritesIndex (i : Instr) : Prop := (∃ nnn, i = .lda nnn) ∨ ∃ x, i = .adda x ∨ i = .fnt x

/-- Where a jump or a skip that leaves the stack alone can go (R24, R101, R102, R104). -/
def JumpTarget (s : State) (e : Word) : Prop :=
  e = s.pc + 2#16 ∨ e = s.pc + 4#16 ∨ e.toNat ≤ 0x10FE

/-- What an instruction can answer from `s`, by the operation its meaning ends in. -/
inductive Effect (s : State) : Instr → State → Prop
  | wait {x : Nibble} (hscan : s.lowestKey? = none) : Effect s (.key x) s
  | goto {i : Instr} {e : Word} (hi : i.setsPc = true) (he : JumpTarget s e) : Effect s i (s.jump e)
  | call {nnn : Addr12} : Effect s (.call nnn) ((s.push s.pc).jump (zextAddr nnn))
  | ret : Effect s .ret (s.pop.jump (s.topEntry + 2#16))
  | reg {i : Instr} {x : Nibble} {b : Byte} (hi : WritesReg i x) : Effect s i (s.setReg x b).advance
  | flag {i : Instr} {x : Nibble} {b : Byte} {c : Bool} (hi : WritesFlag i x) :
      Effect s i (s.writeResultThenFlag x b c).advance
  | rnd {x : Nibble} {nn : Byte} : Effect s (.rnd x nn) (rndWith s.rndInput x nn s).countDraw
  | index {i : Instr} {w : Word} (hi : WritesIndex i) : Effect s i { s with I := w }.advance
  | bcd {x : Nibble} {bs : List Byte} : Effect s (.bcd x) (s.storeBytes bs).advance
  | stm {x : Nibble} {bs : List Byte} {n : Nat} :
      Effect s (.stm x) ((s.storeBytes bs).addIndex n).advance
  | ldm {x : Nibble} : Effect s (.ldm x) ((s.loadLow x).addIndex (regCount x)).advance
  | cls : Effect s .cls { s with fb := blankScreen, redraw := true }.advance
  | drw {x y n : Nibble} {fb : Framebuffer} {b : Byte} :
      Effect s (.drw x y n) ({ s with fb := fb, redraw := true }.setReg vf b).advance
  | sdt {x : Nibble} {b : Byte} : Effect s (.sdt x) { s with DT := b }.advance
  | sst {x : Nibble} {b : Byte} : Effect s (.sst x) { s with ST := b }.advance

theorem Effect.advance {s : State} {i : Instr} (hi : i.setsPc = true) : Effect s i s.advance :=
  .goto hi (.inl rfl)

theorem Effect.skipIf {s : State} {i : Instr} (hi : i.setsPc = true) (c : Bool) :
    Effect s i (s.skipIf c) :=
  match c with
  | true => .goto hi (.inr (.inl rfl))
  | false => .goto hi (.inl rfl)

/-- A jump to an immediate address, or past one by a byte, stays at 0x10FE or below (R25). -/
theorem jumpTarget_zextAddr (s : State) (nnn : Addr12) : JumpTarget s (zextAddr nnn) := by
  refine .inr (.inr ?_)
  rw [toNat_zextAddr]
  omega

theorem jumpTarget_jumpSum (s : State) (nnn : Addr12) (b : Byte) : JumpTarget s (jumpSum nnn b) := by
  refine .inr (.inr ?_)
  rw [toNat_jumpSum]
  omega

/-- Every instruction answers a next state, by the operation of its kind. -/
theorem exec_effect (i : Instr) (s : State) : ∃ t, exec i s = .next t ∧ Effect s i t := by
  cases i with
  | cls => exact ⟨_, exec_cls s, .cls⟩
  | ret =>
    rcases Nat.eq_zero_or_pos s.sp.val with hempty | hused
    · exact ⟨_, exec_ret_of_empty hempty, .advance rfl⟩
    · exact ⟨_, exec_ret_of_used hused, .ret⟩
  | sys nnn => exact ⟨_, exec_sys s nnn, .goto rfl (jumpTarget_zextAddr s nnn)⟩
  | jp nnn => exact ⟨_, exec_jp s nnn, .goto rfl (jumpTarget_zextAddr s nnn)⟩
  | call nnn =>
    by_cases hroom : s.sp.val < 16
    · exact ⟨_, exec_call_of_room hroom nnn, .call⟩
    · exact ⟨_, exec_call_of_full (by omega) nnn, .advance rfl⟩
  | sei x nn => exact ⟨_, exec_sei s x nn, .skipIf rfl _⟩
  | snei x nn => exact ⟨_, exec_snei s x nn, .skipIf rfl _⟩
  | se x y => exact ⟨_, exec_se s x y, .skipIf rfl _⟩
  | ldi x nn => exact ⟨_, exec_ldi s x nn, .reg (.inr (.inl ⟨nn, .inl rfl⟩))⟩
  | addi x nn => exact ⟨_, exec_addi s x nn, .reg (.inr (.inl ⟨nn, .inr rfl⟩))⟩
  | mov x y => exact ⟨_, exec_mov s x y, .reg (.inl ⟨y, .inl rfl⟩)⟩
  | or x y => exact ⟨_, exec_or s x y, .reg (.inl ⟨y, .inr (.inl rfl)⟩)⟩
  | and x y => exact ⟨_, exec_and s x y, .reg (.inl ⟨y, .inr (.inr (.inl rfl))⟩)⟩
  | xor x y => exact ⟨_, exec_xor s x y, .reg (.inl ⟨y, .inr (.inr (.inr rfl))⟩)⟩
  | add x y => exact ⟨_, exec_add s x y, .flag ⟨y, .inl rfl⟩⟩
  | sub x y => exact ⟨_, exec_sub s x y, .flag ⟨y, .inr (.inl rfl)⟩⟩
  | shr x y => exact ⟨_, exec_shr s x y, .flag ⟨y, .inr (.inr (.inr (.inl rfl)))⟩⟩
  | subn x y => exact ⟨_, exec_subn s x y, .flag ⟨y, .inr (.inr (.inl rfl))⟩⟩
  | shl x y => exact ⟨_, exec_shl s x y, .flag ⟨y, .inr (.inr (.inr (.inr rfl)))⟩⟩
  | sne x y => exact ⟨_, exec_sne s x y, .skipIf rfl _⟩
  | lda nnn => exact ⟨_, exec_lda s nnn, .index (.inl ⟨nnn, rfl⟩)⟩
  | jpv0 nnn => exact ⟨_, exec_jpv0 s nnn, .goto rfl (jumpTarget_jumpSum s nnn _)⟩
  | rnd x nn => exact ⟨_, exec_rnd s x nn, .rnd⟩
  | drw x y n => exact ⟨_, exec_drw s x y n, .drw⟩
  | skp x =>
    cases hkey : s.keyPressed? (s.reg x).toNat with
    | some p => exact ⟨_, exec_skp_of_key hkey, .skipIf rfl _⟩
    | none => exact ⟨_, exec_skp_of_no_key hkey, .advance rfl⟩
  | sknp x =>
    cases hkey : s.keyPressed? (s.reg x).toNat with
    | some p => exact ⟨_, exec_sknp_of_key hkey, .skipIf rfl _⟩
    | none => exact ⟨_, exec_sknp_of_no_key hkey, .advance rfl⟩
  | gdt x => exact ⟨_, exec_gdt s x, .reg (.inr (.inr (.inl rfl)))⟩
  | key x =>
    cases hscan : s.lowestKey? with
    | some k => exact ⟨_, exec_key_of_some hscan x, .reg (.inr (.inr (.inr rfl)))⟩
    | none => exact ⟨_, exec_key_of_none hscan x, .wait hscan⟩
  | sdt x => exact ⟨_, exec_sdt s x, .sdt⟩
  | sst x => exact ⟨_, exec_sst s x, .sst⟩
  | adda x => exact ⟨_, exec_adda s x, .index (.inr ⟨x, .inl rfl⟩)⟩
  | fnt x => exact ⟨_, exec_fnt s x, .index (.inr ⟨x, .inr rfl⟩)⟩
  | bcd x => exact ⟨_, exec_bcd s x, .bcd⟩
  | stm x => exact ⟨_, exec_stm s x, .stm⟩
  | ldm x => exact ⟨_, exec_ldm s x, .ldm⟩

theorem effect_of_exec {i : Instr} {s t : State} (h : exec i s = .next t) : Effect s i t := by
  obtain ⟨u, hu, heffect⟩ := exec_effect i s
  cases hu.symm.trans h
  exact heffect

/-! ### The advance of `pc` (R24) -/

/-- Settles O17: the operations that do not advance `pc` are those of the instructions that set it, and the
wait of a `KEY` that finds no key. -/
theorem otherInstructionsAdvanceByTwo : Obligations.OtherInstructionsAdvanceByTwo := by
  intro i s hi hkey
  obtain ⟨t, ht, heffect⟩ := exec_effect i s
  refine ⟨t, ht, ?_⟩
  cases heffect with
  | @wait x hscan =>
    obtain ⟨k, hk⟩ := hkey x rfl
    exact absurd hk (by simp [(lowestKey?_eq_none s).1 hscan k])
  | goto hset => exact absurd (hset.symm.trans hi) (by decide)
  | call => cases hi
  | ret => cases hi
  | _ => rfl

/-! ### The writers of `VF` (R22) -/

/-- `LDM` reaches `VF` only with `X = 15`. -/
theorem vf_loadLow {s : State} {x : Nibble} (hx : x ≠ vf) : (s.loadLow x).reg vf = s.reg vf := by
  have hlt : ¬ 15 < regCount x := by
    have : x.toNat ≠ 15 := fun h => hx (BitVec.eq_of_toNat_eq h)
    simp only [regCount]; omega
  exact (loadRegs_getElem _ _ _ _ 15 (by decide)).trans (if_neg fun h => hlt h.1)

/-- Settles O27: of the operations only a register write to `VF`, a result written with its flag, `RND` and
`LDM` with `X = 15` and `DRW` write `VF`. -/
theorem onlyListedInstructionsWriteVF : Obligations.OnlyListedInstructionsWriteVF := by
  intro i s t h hvf
  cases effect_of_exec h with
  | @reg _ x b hi =>
    obtain rfl : x = vf := by
      by_contra hx; exact hvf (State.reg_setReg_other s b (Ne.symm hx))
    rcases hi with hi | ⟨nn, hi⟩ | hi | hi
    · exact .inr (.inr (.inl hi))
    · exact .inr (.inr (.inr (.inl ⟨nn, hi.imp_right .inl⟩)))
    · exact .inr (.inr (.inr (.inr (.inl hi))))
    · exact .inr (.inr (.inr (.inr (.inr (.inl hi)))))
  | @flag _ x _ _ hi => exact .inl ⟨x, hi⟩
  | @rnd x nn =>
    obtain rfl : x = vf := by
      by_contra hx; exact hvf (State.reg_setReg_other s _ (Ne.symm hx))
    exact .inr (.inr (.inr (.inl ⟨nn, .inr (.inr rfl)⟩)))
  | @ldm x =>
    obtain rfl : x = vf := by
      by_contra hx; exact hvf (vf_loadLow hx)
    exact .inr (.inr (.inr (.inr (.inr (.inr rfl)))))
  | @drw x y n => exact .inr (.inl ⟨x, y, n, rfl⟩)
  | call => exact absurd (reg_push s s.pc vf) hvf
  | _ => exact absurd rfl hvf

/-! ### The writers of each storage (R26 to R31, R50) -/

section
variable {i : Instr} {s t : State} (h : Effect s i t)
include h

theorem Effect.mem_writers : t.mem ≠ s.mem → ∃ x, i = .bcd x ∨ i = .stm x := by
  cases h with
  | @bcd x => exact fun _ => ⟨x, .inl rfl⟩
  | @stm x => exact fun _ => ⟨x, .inr rfl⟩
  | _ => simp

theorem Effect.stack_writers : t.stack ≠ s.stack → ∃ nnn, i = .call nnn := by
  cases h with
  | @call nnn => exact fun _ => ⟨nnn, rfl⟩
  | _ => simp

theorem Effect.sp_writers : t.sp ≠ s.sp → i = .ret ∨ ∃ nnn, i = .call nnn := by
  cases h with
  | @call nnn => exact fun _ => .inr ⟨nnn, rfl⟩
  | ret => exact fun _ => .inl rfl
  | _ => simp

theorem Effect.fb_writers : t.fb ≠ s.fb → i = .cls ∨ ∃ x y n, i = .drw x y n := by
  cases h with
  | cls => exact fun _ => .inl rfl
  | @drw x y n => exact fun _ => .inr ⟨x, y, n, rfl⟩
  | _ => simp

theorem Effect.redraw_writers :
    t.redraw ≠ s.redraw → (i = .cls ∨ ∃ x y n, i = .drw x y n) ∧ t.redraw = true := by
  cases h with
  | cls => exact fun _ => ⟨.inl rfl, rfl⟩
  | @drw x y n => exact fun _ => ⟨.inr ⟨x, y, n, rfl⟩, rfl⟩
  | _ => simp

theorem Effect.DT_writers : t.DT ≠ s.DT → ∃ x, i = .sdt x := by
  cases h with
  | @sdt x => exact fun _ => ⟨x, rfl⟩
  | _ => simp

theorem Effect.ST_writers : t.ST ≠ s.ST → ∃ x, i = .sst x := by
  cases h with
  | @sst x => exact fun _ => ⟨x, rfl⟩
  | _ => simp

theorem Effect.I_writers :
    t.I ≠ s.I → (∃ nnn, i = .lda nnn) ∨ ∃ x, i = .adda x ∨ i = .fnt x ∨ i = .stm x ∨ i = .ldm x := by
  cases h with
  | index hi => exact fun _ => hi.imp_right fun ⟨x, hx⟩ => ⟨x, hx.imp_right .inl⟩
  | @stm x => exact fun _ => .inr ⟨x, .inr (.inr (.inl rfl))⟩
  | @ldm x => exact fun _ => .inr ⟨x, .inr (.inr (.inr rfl))⟩
  | _ => simp

theorem Effect.key_eq : t.key = s.key := by
  cases h <;> simp

/-- Only `RND` counts a draw (R131, log entry 1). -/
theorem Effect.draws_writers : t.draws ≠ s.draws → ∃ x nn, i = .rnd x nn := by
  cases h with
  | @rnd x nn => exact fun _ => ⟨x, nn, rfl⟩
  | _ => simp

end

/-- Settles O49, storage by storage. -/
theorem eachStorageHasItsListedWriters : Obligations.EachStorageHasItsListedWriters := by
  intro i s t h
  have heffect := effect_of_exec h
  refine ⟨fun ⟨a, ha⟩ => heffect.mem_writers fun hmem => ha (by rw [hmem]), heffect.stack_writers,
    heffect.sp_writers, heffect.fb_writers, heffect.redraw_writers, heffect.DT_writers,
    heffect.ST_writers, heffect.I_writers, heffect.key_eq⟩

end Sys2Proof.Machine

/-! SUPPORT. The STEP by its three cases (R70): a fetch beyond memory, an unrecognized word and a decoded
instruction, each with its outcome and diagnostics; and from them the statements on STEP, on holding states, on
the random byte and on the invariant of R37. -/

namespace Sys2Proof.Machine

/-! ### The three cases of a STEP -/

/-- A STEP that fetches nothing (R71). -/
theorem step_of_no_fetch {s : State} (hfetch : s.fetch? = none) :
    step s = .next s ∧ stepOutcome s = .fetchOob ∧ stepDiag s = [.fetchOutOfBounds] := by
  simp [step, stepOutcome, stepDiag, hfetch, fetchOutOfBounds]

/-- A STEP on an unrecognized word (R80). -/
theorem step_of_unrecognized {s : State} {op : Word} (hfetch : s.fetch? = some op)
    (hdecode : decodeWord op = none) :
    step s = .next s ∧ stepOutcome s = .unknown ∧ stepDiag s = [.unknownOpcode] := by
  simp [step, stepOutcome, stepDiag, hfetch, hdecode, unknownOpcode]

/-- A STEP on a recognized word runs its instruction and answers that instruction's outputs (R70). -/
theorem step_of_decoded {s : State} {op : Word} {i : Instr} (hfetch : s.fetch? = some op)
    (hdecode : decodeWord op = some i) :
    step s = exec i s ∧ stepOutcome s = outcomeOf i s ∧ stepDiag s = diagOf i s := by
  simp [step, stepOutcome, stepDiag, hfetch, hdecode]

/-- What a STEP finds where `pc` stands. -/
inductive Fetched (s : State) : Prop
  | beyond (hfetch : s.fetch? = none)
  | unrecognized {op : Word} (hfetch : s.fetch? = some op) (hdecode : decodeWord op = none)
  | instr {op : Word} {i : Instr} (hfetch : s.fetch? = some op) (hdecode : decodeWord op = some i)

theorem fetched (s : State) : Fetched s := by
  cases hfetch : s.fetch? with
  | none => exact .beyond hfetch
  | some op =>
    cases hdecode : decodeWord op with
    | none => exact .unrecognized hfetch hdecode
    | some i => exact .instr hfetch hdecode

theorem pc_le_of_fetch {s : State} {op : Word} (hfetch : s.fetch? = some op) : s.pc.toNat ≤ 0xFFE := by
  by_contra hpc
  simp [fetch?_of_gt s (by omega)] at hfetch

/-- Settles O6. -/
theorem stepRunsTheDecodedInstruction : Obligations.StepRunsTheDecodedInstruction := by
  refine fun s => ⟨fun hpc => step_of_no_fetch (fetch?_of_gt s hpc), fun hpc => ?_⟩
  have hfetch := fetch?_of_le s hpc
  exact ⟨_, toNat_wordOfBytes _ _, step_of_unrecognized hfetch, fun i => step_of_decoded hfetch⟩

/-- Settles O10: a STEP that runs no instruction answers its own state, and every instruction answers one. -/
theorem stepAlwaysAnswersAState : Obligations.StepAlwaysAnswersAState := by
  intro s
  have hexec : ∀ i, ∃ t, exec i s = .next t := fun i => (exec_effect i s).imp fun _ => And.left
  refine ⟨?_, hexec⟩
  cases fetched s with
  | beyond hfetch => exact ⟨s, (step_of_no_fetch hfetch).1⟩
  | unrecognized hfetch hdecode => exact ⟨s, (step_of_unrecognized hfetch hdecode).1⟩
  | @instr _ i hfetch hdecode => exact (step_of_decoded hfetch hdecode).1 ▸ hexec i

/-! ### The invariant of R37 -/

theorem toNat_pc_add_two_le {e : Word} (h : e.toNat ≤ 0xFFE) : (e + 2#16).toNat ≤ 0x10FE := by
  bv_omega

theorem JumpTarget.toNat_le {s : State} {e : Word} (h : JumpTarget s e) (hpc : s.pc.toNat ≤ 0xFFE) :
    e.toNat ≤ 0x10FE := by
  rcases h with rfl | rfl | he
  · exact toNat_pc_add_two_le hpc
  · bv_omega
  · exact he

section
variable {i : Instr} {s t : State} (h : Effect s i t)
include h

/-- Every store keeps the canonical form of memory, and nothing else writes memory. -/
theorem Effect.mem_wf (hwf : s.mem.wf) : t.mem.wf := by
  cases h with
  | bcd => exact Memory.writeBytes_wf _ _ hwf
  | stm => exact Memory.writeBytes_wf _ _ hwf
  | call => rw [jump_mem, push_mem]; exact hwf
  | _ => exact hwf

/-- From a `pc` that could be fetched from, `pc` stays at 0x10FE or below: a return goes 2 past an entry, and
a jump no further than `JPV0` can. -/
theorem Effect.pcBounded (hpc : s.pc.toNat ≤ 0xFFE) (hstack : s.StackBounded) : t.PcBounded := by
  cases h with
  | wait => exact hpc.trans (by decide)
  | goto _ he => exact he.toNat_le hpc
  | call => exact (jumpTarget_zextAddr s _).toNat_le hpc
  | ret => exact toNat_pc_add_two_le (topEntry_bound s _ hstack)
  | _ => exact toNat_pc_add_two_le hpc

/-- What `CALL` pushes is a `pc` that was fetched from (R37). -/
theorem Effect.stackBounded (hpc : s.pc.toNat ≤ 0xFFE) (hstack : s.StackBounded) : t.StackBounded := by
  cases h with
  | call => exact push_stack_bound s s.pc _ hpc hstack
  | _ => exact hstack

end

/-- A STEP keeps the invariant: it changes the state only where the fetch bound held. -/
theorem step_inv {s t : State} (hinv : s.Inv) (h : step s = .next t) : t.Inv := by
  cases fetched s with
  | beyond hfetch =>
    cases (step_of_no_fetch hfetch).1.symm.trans h
    exact hinv
  | unrecognized hfetch hdecode =>
    cases (step_of_unrecognized hfetch hdecode).1.symm.trans h
    exact hinv
  | instr hfetch hdecode =>
    obtain ⟨hwf, -, hstack⟩ := hinv
    have hpc := pc_le_of_fetch hfetch
    have heffect := effect_of_exec ((step_of_decoded hfetch hdecode).1.symm.trans h)
    exact ⟨heffect.mem_wf hwf, heffect.pcBounded hpc hstack, heffect.stackBounded hpc hstack⟩

/-- Settles O55. -/
theorem stepKeepsTheInvariant : Obligations.StepKeepsTheInvariant :=
  fun _ _ => step_inv

/-- A RESET that is not refused answers the reset state with the ROM's memory (R200, R201). -/
theorem eq_of_resetWith {rom : List Byte} {t : State} (h : resetWith rom = .next t) :
    t = { State.reset with mem := romMemory rom } := by
  by_cases hfit : rom.length ≤ romMax
  · exact Host.Outcome.next.inj (h.symm.trans (resetWith_of_length_le hfit))
  · rw [resetWith, if_neg hfit] at h
    cases h

theorem resetWith_inv {rom : List Byte} {t : State} (h : resetWith rom = .next t) : t.Inv := by
  rw [eq_of_resetWith h]
  refine ⟨Memory.writeBytes_wf _ _ Memory.reset_wf, show State.reset.PcBounded by decide, fun k => ?_⟩
  rw [reset_stack_entry]
  decide

/-- Settles O54. -/
theorem resetSatisfiesTheInvariant : Obligations.ResetSatisfiesTheInvariant :=
  fun _ _ => resetWith_inv

/-! ### A STEP with its random byte given -/

theorem stepWith_of_rnd {s : State} {x : Nibble} {nn : Byte}
    (hfetch : s.fetch? = some (encode (.rnd x nn))) (rnd : Byte) :
    stepWith rnd s = .next (rndWith rnd x nn s) := by
  rw [stepWith, hfetch, Option.bind_some, decodeWord_encode rfl]

theorem stepWith_of_not_rnd {s : State} (h : ∀ x nn, s.fetch? ≠ some (encode (.rnd x nn))) (rnd : Byte) :
    stepWith rnd s = step s := by
  unfold stepWith
  split
  next x nn hrnd =>
    obtain ⟨op, hfetch, hdecode⟩ := Option.bind_eq_some_iff.1 hrnd
    exact absurd ((encode_of_decodeWord hdecode).1 ▸ hfetch) (h x nn)
  next => rfl

/-- A STEP with its random byte given either runs `RND` with that byte or is the STEP. -/
theorem stepWith_cases (s : State) (rnd : Byte) :
    (∃ x nn, s.fetch? = some (encode (.rnd x nn)) ∧ stepWith rnd s = .next (rndWith rnd x nn s)) ∨
      stepWith rnd s = step s := by
  by_cases h : ∃ x nn, s.fetch? = some (encode (.rnd x nn))
  · obtain ⟨x, nn, hfetch⟩ := h
    exact .inl ⟨x, nn, hfetch, stepWith_of_rnd hfetch rnd⟩
  · exact .inr (stepWith_of_not_rnd (fun x nn hfetch => h ⟨x, nn, hfetch⟩) rnd)

theorem stepWith_inv {s t : State} {rnd : Byte} (hinv : s.Inv) (h : stepWith rnd s = .next t) : t.Inv := by
  rcases stepWith_cases s rnd with ⟨x, nn, hfetch, hstep⟩ | hstep
  · cases hstep.symm.trans h
    exact ⟨hinv.1, toNat_pc_add_two_le (pc_le_of_fetch hfetch), hinv.2.2⟩
  · exact step_inv hinv (hstep ▸ h)

/-- Settles O25: what remains of a byte masked by `NN` under NOT `NN` is nothing. -/
theorem randomByteIsMasked : Obligations.RandomByteIsMasked := by
  refine fun s x nn => ⟨⟨_, exec_rnd s x nn, ?masked, ?_⟩, fun rnd hfetch =>
    ⟨_, stepWith_of_rnd hfetch rnd, reg_setReg_advance s x _, rfl, onlyRegs_setReg_advance s x _⟩⟩
  case masked =>
    rw [reg_countDraw, reg_rndWith, if_pos rfl, BitVec.and_assoc]
    simp
  obtain ⟨hregs, hmem, hstack, htimers, hscreen, hI, hkey, hdraws⟩ :=
    onlyRegs_setReg_advance s x (s.rndInput &&& nn)
  exact ⟨rfl, hregs, hmem, hstack, htimers, hscreen, hI, hkey, congrArg (· + 1) hdraws⟩

/-- Settles O26: no other instruction counts a draw, and the given byte is read for `RND` alone. -/
theorem onlyRndReadsTheRandomByte : Obligations.OnlyRndReadsTheRandomByte := by
  intro s hnot
  obtain ⟨t, ht⟩ := (stepAlwaysAnswersAState s).1
  refine ⟨t, ht, ?_, fun rnd => (stepWith_of_not_rnd hnot rnd).trans ht⟩
  cases fetched s with
  | beyond hfetch =>
    cases (step_of_no_fetch hfetch).1.symm.trans ht
    rfl
  | unrecognized hfetch hdecode =>
    cases (step_of_unrecognized hfetch hdecode).1.symm.trans ht
    rfl
  | instr hfetch hdecode =>
    by_contra hdraws
    obtain ⟨x, nn, rfl⟩ :=
      (effect_of_exec ((step_of_decoded hfetch hdecode).1.symm.trans ht)).draws_writers hdraws
    exact hnot x nn ((encode_of_decodeWord hdecode).1 ▸ hfetch)

end Sys2Proof.Machine

/-! SUPPORT. Diagnostics and outcomes (R153, R170, R171, R175): which codes an instruction can raise, and when
its outcome is not `OK`; the states no STEP changes (R193); and from them the statements on code 5, on the
number of codes, on the outcomes and on the holding states. -/

namespace Sys2Proof.Machine

/-! ### The defensive check of R153 -/

/-- Rows are below 32 and columns below 64, so a cell number is below 2048. -/
theorem lt_of_mem_spriteCells {x0 y0 : Byte} {n cell : Nat} (h : cell ∈ spriteCells x0 y0 n) :
    cell < 2048 := by
  obtain ⟨r, -, hr⟩ := List.mem_flatMap.1 h
  obtain ⟨c, -, rfl⟩ := List.mem_map.1 hr
  have hrow := (spriteRow y0 r).isLt
  have hcol := (spriteCol x0 c).isLt
  simp only [cellNumber]
  omega

theorem spriteOffBuffer_eq_false (x0 y0 : Byte) (n : Nat) : spriteOffBuffer x0 y0 n = false := by
  simpa [spriteOffBuffer] using fun _ => lt_of_mem_spriteCells

/-! ### The codes an instruction can raise -/

theorem raiseIf_of_true {c : Bool} (h : c = true) (d : Diag) : raiseIf c d = [d] := if_pos h

theorem raiseIf_of_false {c : Bool} (h : c = false) (d : Diag) : raiseIf c d = [] := by
  rw [h]; rfl

/-- `DRW` raises no code but that of its addresses: the defensive check never fails. -/
theorem diagOf_drw (s : State) (x y n : Nibble) :
    diagOf (.drw x y n) s = raiseIf (s.transferOutOfBounds n.toNat) .memOutOfBounds := by
  simp [diagOf, raiseIf_of_false (spriteOffBuffer_eq_false _ _ _)]

/-- The four codes of table R170 that an instruction can raise. -/
abbrev instrDiags : List Diag := [.stackOverflow, .stackUnderflow, .memOutOfBounds, .keyIndexOutOfRange]

theorem raiseIf_cases {d : Diag} (hd : d ∈ instrDiags) (c : Bool) :
    raiseIf c d = [] ∨ ∃ e ∈ instrDiags, raiseIf c d = [e] := by
  cases c with
  | true => exact .inr ⟨d, hd, rfl⟩
  | false => exact .inl rfl

/-- An instruction raises nothing or one code. -/
theorem diagOf_cases (i : Instr) (s : State) :
    diagOf i s = [] ∨ ∃ d ∈ instrDiags, diagOf i s = [d] := by
  cases i with
  | ret => exact raiseIf_cases (by decide) _
  | call nnn => exact raiseIf_cases (by decide) _
  | drw x y n => rw [diagOf_drw]; exact raiseIf_cases (by decide) _
  | bcd x => exact raiseIf_cases (by decide) _
  | stm x => exact raiseIf_cases (by decide) _
  | ldm x => exact raiseIf_cases (by decide) _
  | skp x => exact raiseIf_cases (by decide) _
  | sknp x => exact raiseIf_cases (by decide) _
  | _ => exact .inl rfl

theorem not_mem_diagOf {i : Instr} {s : State} {d : Diag} (hd : d ∉ instrDiags) : d ∉ diagOf i s := by
  rcases diagOf_cases i s with h | ⟨e, he, h⟩
  · simp [h]
  · rw [h, List.mem_singleton]
    rintro rfl
    exact hd he

/-- Settles O39: no instruction raises code 5, and a STEP that runs none raises a code of its own. -/
theorem pixelOutOfBoundsIsNeverRaised : Obligations.PixelOutOfBoundsIsNeverRaised := by
  refine fun s => ⟨?_, fun _ _ _ _ => lt_of_mem_spriteCells⟩
  cases fetched s with
  | beyond hfetch => simp [step_of_no_fetch hfetch]
  | unrecognized hfetch hdecode => simp [step_of_unrecognized hfetch hdecode]
  | instr hfetch hdecode =>
    obtain ⟨-, -, hdiag⟩ := step_of_decoded hfetch hdecode
    rw [hdiag]
    exact not_mem_diagOf (by decide)

/-- Settles O51. -/
theorem atMostOneDiagnosticPerStep : Obligations.AtMostOneDiagnosticPerStep := by
  intro s
  cases fetched s with
  | beyond hfetch => simp [step_of_no_fetch hfetch]
  | unrecognized hfetch hdecode => simp [step_of_unrecognized hfetch hdecode]
  | @instr _ i hfetch hdecode =>
    obtain ⟨-, -, hdiag⟩ := step_of_decoded hfetch hdecode
    rw [hdiag]
    rcases diagOf_cases i s with h | ⟨d, -, h⟩ <;> simp [h]

/-! ### The outcomes -/

/-- The outcome of an instruction is `OK`, but for a `KEY` whose scan finds no key (R162, R171). -/
theorem outcomeOf_cases (i : Instr) (s : State) :
    outcomeOf i s = .ok ∨ ∃ x, i = .key x ∧ s.lowestKey? = none ∧ outcomeOf i s = .waitKey := by
  cases i with
  | key x =>
    cases hscan : s.lowestKey? with
    | none => exact .inr ⟨x, rfl, rfl, (outcomeOf_key_eq_waitKey_iff s x).2 hscan⟩
    | some k => exact .inl (by simp [outcomeOf_key, hscan])
  | _ => exact .inl rfl

/-- Settles O52: in each of the three cases of a STEP the outcome and the codes are known; of the instructions
only a waiting `KEY` answers another outcome than `OK`, and it changes nothing. -/
theorem outcomeOtherThanOkMeansNoChange : Obligations.OutcomeOtherThanOkMeansNoChange := by
  intro s
  cases fetched s with
  | beyond hfetch => simp [step_of_no_fetch hfetch]
  | unrecognized hfetch hdecode => simp [step_of_unrecognized hfetch hdecode]
  | @instr _ i hfetch hdecode =>
    obtain ⟨hstep, houtcome, hdiag⟩ := step_of_decoded hfetch hdecode
    have hunknown : Diag.unknownOpcode ∉ diagOf i s := not_mem_diagOf (by decide)
    have hoob : Diag.fetchOutOfBounds ∉ diagOf i s := not_mem_diagOf (by decide)
    rw [hstep, houtcome, hdiag]
    rcases outcomeOf_cases i s with hok | ⟨x, rfl, hscan, hwait⟩
    · simp [hok, hunknown, hoob]
    · simpa [hwait, hunknown, hoob, exec_key_of_none hscan] using
        ⟨rfl, (lowestKey?_eq_none s).1 hscan⟩

/-! ### States no STEP changes -/

/-- Any number of steps from a fixed point ends there. -/
theorem run_of_step_eq_self {M : Host.Core} {s : M.State} (h : M.step s = .next s) (n : Nat) :
    M.run n s = .next s := by
  induction n with
  | zero => rfl
  | succ n ih => rw [Host.Core.run, h]; exact ih

/-- Settles O8. -/
theorem fetchBeyondMemoryHoldsForEver : Obligations.FetchBeyondMemoryHoldsForEver := by
  intro s n hpc
  obtain ⟨hstep, houtputs⟩ := step_of_no_fetch (fetch?_of_gt s hpc)
  exact ⟨run_of_step_eq_self (M := core) hstep n, houtputs⟩

theorem step_eq_self_of_outcome {s : State} (h : stepOutcome s ≠ .ok) : step s = .next s :=
  (outcomeOtherThanOkMeansNoChange s).1 h

/-- A jump to itself changes nothing, `pc` included (R193). -/
theorem step_eq_self_of_jumpsToSelf {s : State} (h : s.jumpsToSelf = true) : step s = .next s := by
  have hjump : ∀ {i : Instr} {e : Word}, s.fetch?.bind decodeWord = some i → (e == s.pc) = true →
      exec i s = .next (s.jump e) → step s = .next s := by
    intro i e hi he hexec
    obtain ⟨op, hfetch, hdecode⟩ := Option.bind_eq_some_iff.1 hi
    rw [(step_of_decoded hfetch hdecode).1, hexec, beq_iff_eq.1 he]
    rfl
  unfold State.jumpsToSelf at h
  split at h
  case h_1 nnn hi => exact hjump hi h (exec_jp s nnn)
  case h_2 nnn hi => exact hjump hi h (exec_sys s nnn)
  case h_3 nnn hi => exact hjump hi h (exec_jpv0 s nnn)
  case h_4 => cases h

/-- Settles O53: a terminal state is held, and its outcome is not `OK`, or it jumps to itself. -/
theorem terminalStatesNeverChange : Obligations.TerminalStatesNeverChange := by
  intro s n h
  refine run_of_step_eq_self (M := core) (s := s) ?_ n
  simp only [State.terminal, Bool.or_eq_true, State.heldFetchOob, State.heldUnknown, beq_iff_eq] at h
  obtain (hoob | hunknown) | hself := h
  · exact step_eq_self_of_outcome (by simp [hoob])
  · exact step_eq_self_of_outcome (by simp [hunknown])
  · exact step_eq_self_of_jumpsToSelf hself

/-! ### What no STEP reads (R28, R30) -/

/-- `s` with other contents of the sound timer and the redraw flag. -/
abbrev State.withSilent (s : State) (a : Byte) (b : Bool) : State := { s with ST := a, redraw := b }

/-- An instruction does the same to everything but the sound timer and the redraw flag, whatever these
hold. -/
theorem exec_withSilent (i : Instr) (s : State) (a : Byte) (b : Bool) :
    ∃ t u, exec i s = .next t ∧ exec i (s.withSilent a b) = .next u ∧
      u.withSilent t.ST t.redraw = t := by
  have hskip : ∀ c : Bool, ((s.withSilent a b).skipIf c).withSilent (s.skipIf c).ST (s.skipIf c).redraw =
      s.skipIf c := fun c => by cases c <;> rfl
  cases i with
  | ret =>
    rcases Nat.eq_zero_or_pos s.sp.val with hempty | hused
    · exact ⟨_, _, exec_ret_of_empty hempty, exec_ret_of_empty hempty, rfl⟩
    · exact ⟨_, _, exec_ret_of_used hused, exec_ret_of_used hused, rfl⟩
  | call nnn =>
    have hsame : (s.withSilent a b).sp = s.sp := rfl
    by_cases hroom : s.sp.val < 16
    · refine ⟨_, _, exec_call_of_room hroom nnn, exec_call_of_room (hsame ▸ hroom) nnn, ?_⟩
      simp only [State.push, hroom, dif_pos]
      rfl
    · have hfull : s.sp.val = 16 := by omega
      exact ⟨_, _, exec_call_of_full hfull nnn, exec_call_of_full (hsame ▸ hfull) nnn, rfl⟩
  | sei x nn => exact ⟨_, _, exec_sei s x nn, exec_sei _ x nn, hskip _⟩
  | snei x nn => exact ⟨_, _, exec_snei s x nn, exec_snei _ x nn, hskip _⟩
  | se x y => exact ⟨_, _, exec_se s x y, exec_se _ x y, hskip _⟩
  | sne x y => exact ⟨_, _, exec_sne s x y, exec_sne _ x y, hskip _⟩
  | skp x =>
    cases hkey : s.keyPressed? (s.reg x).toNat with
    | some p => exact ⟨_, _, exec_skp_of_key hkey, exec_skp_of_key hkey, hskip _⟩
    | none => exact ⟨_, _, exec_skp_of_no_key hkey, exec_skp_of_no_key hkey, rfl⟩
  | sknp x =>
    cases hkey : s.keyPressed? (s.reg x).toNat with
    | some p => exact ⟨_, _, exec_sknp_of_key hkey, exec_sknp_of_key hkey, hskip _⟩
    | none => exact ⟨_, _, exec_sknp_of_no_key hkey, exec_sknp_of_no_key hkey, rfl⟩
  | key x =>
    have hsame : (s.withSilent a b).lowestKey? = s.lowestKey? := rfl
    cases hscan : s.lowestKey? with
    | some k => exact ⟨_, _, exec_key_of_some hscan x, exec_key_of_some (hsame.trans hscan) x, rfl⟩
    | none => exact ⟨_, _, exec_key_of_none hscan x, exec_key_of_none (hsame.trans hscan) x, rfl⟩
  | _ => exact ⟨_, _, rfl, rfl, rfl⟩

theorem outcomeOf_withSilent (i : Instr) (s : State) (a : Byte) (b : Bool) :
    outcomeOf i (s.withSilent a b) = outcomeOf i s := by
  cases i <;> rfl

theorem diagOf_withSilent (i : Instr) (s : State) (a : Byte) (b : Bool) :
    diagOf i (s.withSilent a b) = diagOf i s := by
  cases i <;> rfl

/-- Settles O50: the fetch reads neither element, so both states are in the same case of the STEP. -/
theorem soundTimerAndRedrawAreNotRead : Obligations.SoundTimerAndRedrawAreNotRead := by
  intro s t a b h
  have hsame : (s.withSilent a b).fetch? = s.fetch? := rfl
  cases fetched s with
  | beyond hfetch =>
    cases (step_of_no_fetch hfetch).1.symm.trans h
    obtain ⟨hstep, houtputs⟩ := step_of_no_fetch (hsame.trans hfetch)
    exact ⟨_, hstep, rfl, by simp [houtputs, step_of_no_fetch hfetch]⟩
  | unrecognized hfetch hdecode =>
    cases (step_of_unrecognized hfetch hdecode).1.symm.trans h
    obtain ⟨hstep, houtputs⟩ := step_of_unrecognized (hsame.trans hfetch) hdecode
    exact ⟨_, hstep, rfl, by simp [houtputs, step_of_unrecognized hfetch hdecode]⟩
  | @instr _ i hfetch hdecode =>
    obtain ⟨hstep, houtcome, hdiag⟩ := step_of_decoded hfetch hdecode
    obtain ⟨hstep', houtcome', hdiag'⟩ := step_of_decoded (hsame.trans hfetch) hdecode
    obtain ⟨t', u, ht, hu, heq⟩ := exec_withSilent i s a b
    cases ht.symm.trans (hstep.symm.trans h)
    exact ⟨u, hstep'.trans hu, heq,
      houtcome'.trans ((outcomeOf_withSilent i s a b).trans houtcome.symm),
      hdiag'.trans ((diagOf_withSilent i s a b).trans hdiag.symm)⟩

end Sys2Proof.Machine

/-! SUPPORT. The events other than STEP (R180 to R187, R200 to R202), and the loading of a word: what each event
answers, what any sequence of them keeps; and from them the statements on TICK, KEYS, REDRAW_ACK, RESET, on a
core held at an unrecognized word and on reachable states. -/

namespace Sys2Proof.Machine

/-! ### TICK (R180) -/

theorem tick_DT (s : State) : (tick s).DT = countDown s.DT := rfl

/-- Settles O45. -/
theorem tickCountsBothTimersDown : Obligations.TickCountsBothTimersDown := fun s =>
  ⟨rfl, toNat_countDown s.DT, toNat_countDown s.ST, rfl, fun _ _ => rfl, fun _ => rfl, ⟨rfl, rfl⟩,
    ⟨rfl, rfl⟩, rfl, rfl, rfl⟩

/-- TICKs in a row take the delay timer down by their number, stopping at zero. -/
theorem toNat_DT_repeat_tick (s : State) (j : Nat) :
    (Nat.repeat tick j s).DT.toNat = s.DT.toNat - j := by
  induction j with
  | zero => rfl
  | succ j ih =>
    calc (tick (Nat.repeat tick j s)).DT.toNat
        = (Nat.repeat tick j s).DT.toNat - 1 := by rw [tick_DT, toNat_countDown]
      _ = s.DT.toNat - (j + 1) := by rw [ih, Nat.sub_sub]

/-- Settles O47. -/
theorem delayTimerReachesZero : Obligations.DelayTimerReachesZero := fun s j =>
  ⟨toNat_DT_repeat_tick s j, toNat_ST_repeat_tick s j⟩

/-! ### KEYS and REDRAW_ACK (R184, R186) -/

theorem setKeys_key (k : BitVec 16) (s : State) (j : Fin 16) : (setKeys k s).key[j] = k.getLsbD j.val := by
  simp [setKeys]

/-- Settles O48: KEYS replaces the keypad image and REDRAW_ACK the redraw flag. -/
theorem keysAndAckWriteTheirOwnElement : Obligations.KeysAndAckWriteTheirOwnElement := fun s k =>
  ⟨⟨setKeys k s, rfl, setKeys_key k s, rfl, fun _ _ => rfl, fun _ => rfl, ⟨rfl, rfl⟩, ⟨rfl, rfl⟩,
      ⟨rfl, rfl⟩, rfl, rfl⟩,
    ⟨redrawAck s, rfl, rfl, rfl, rfl, fun _ _ => rfl, fun _ => rfl, ⟨rfl, rfl⟩, ⟨rfl, rfl⟩, rfl, rfl,
      rfl⟩⟩

/-! ### RESET (R200 to R202) -/

/-- A RESET does the same whether or not there was a state. -/
theorem apply_reset (rom : List Byte) (b : Option State) : Event.apply (.reset rom) b = resetWith rom := by
  cases b <;> rfl

theorem resetWith_of_too_large {rom : List Byte} (h : 3584 < rom.length) :
    resetWith rom = .refused .romTooLarge :=
  if_neg (by simp only [romMax]; omega)

/-- Without a state every event but RESET is refused (R202). -/
theorem apply_none_of_not_reset {e : Event} (he : ∀ rom, e ≠ .reset rom) :
    e.apply none = .refused .noState := by
  cases e with
  | reset rom => exact absurd rfl (he rom)
  | _ => rfl

/-- Settles O44. -/
theorem oversizeResetLeavesNoState : Obligations.OversizeResetLeavesNoState := by
  refine fun rom b => ⟨apply_reset rom b, fun hlarge => ?refused, fun e he => ?noState⟩
  case refused =>
    have hreset := resetWith_of_too_large hlarge
    exact ⟨hreset, by rw [Event.after, apply_reset, hreset]⟩
  case noState =>
    have happly := apply_none_of_not_reset he
    exact ⟨happly, by rw [Event.after, happly]⟩

/-! ### A core held at an unrecognized word (R80) -/

theorem heldUnknown_iff (s : State) :
    s.heldUnknown = true ↔ ∃ op, s.fetch? = some op ∧ decodeWord op = none := by
  rw [State.heldUnknown, beq_iff_eq]
  constructor
  · intro h
    cases fetched s with
    | beyond hfetch => exact absurd ((step_of_no_fetch hfetch).2.1.symm.trans h) (by decide)
    | unrecognized hfetch hdecode => exact ⟨_, hfetch, hdecode⟩
    | @instr _ i hfetch hdecode =>
      have houtcome := (step_of_decoded hfetch hdecode).2.1.symm.trans h
      rcases outcomeOf_cases i s with hok | ⟨-, -, -, hwait⟩
      · exact absurd (hok.symm.trans houtcome) (by decide)
      · exact absurd (hwait.symm.trans houtcome) (by decide)
  · rintro ⟨op, hfetch, hdecode⟩
    exact (step_of_unrecognized hfetch hdecode).2.1

/-- The elements no event but STEP and RESET writes: `pc`, memory, the registers, `I` and the stack. -/
def SameCore (s t : State) : Prop :=
  t.pc = s.pc ∧ t.mem = s.mem ∧ t.v = s.v ∧ t.I = s.I ∧ SameStack s t

theorem SameCore.refl (s : State) : SameCore s s := ⟨rfl, rfl, rfl, rfl, rfl, rfl⟩

theorem SameCore.trans {s t u : State} (h : SameCore s t) (h' : SameCore t u) : SameCore s u := by
  obtain ⟨hpc, hmem, hv, hI, hstack, hsp⟩ := h
  obtain ⟨hpc', hmem', hv', hI', hstack', hsp'⟩ := h'
  exact ⟨hpc'.trans hpc, hmem'.trans hmem, hv'.trans hv, hI'.trans hI, hstack'.trans hstack,
    hsp'.trans hsp⟩

/-- The fetch reads `pc` and memory alone. -/
theorem SameCore.heldUnknown {s t : State} (h : SameCore s t) (hheld : s.heldUnknown = true) :
    t.heldUnknown = true := by
  obtain ⟨hpc, hmem, -⟩ := h
  have hfetch : t.fetch? = s.fetch? := by simp only [State.fetch?, hpc, hmem]
  rw [heldUnknown_iff] at hheld ⊢
  exact hfetch ▸ hheld

theorem stepWith_of_held {s : State} (hheld : s.heldUnknown = true) (rnd : Byte) :
    stepWith rnd s = .next s := by
  obtain ⟨op, hfetch, hdecode⟩ := (heldUnknown_iff s).1 hheld
  rcases stepWith_cases s rnd with ⟨x, nn, hrnd, -⟩ | hstep
  · cases hfetch.symm.trans hrnd
    cases (decodeWord_encode rfl).symm.trans hdecode
  · exact hstep.trans (step_of_unrecognized hfetch hdecode).1

/-- An event but RESET on a held core leaves `pc`, memory, the registers, `I` and the stack alone. -/
theorem after_of_held {s : State} (hheld : s.heldUnknown = true) {e : Event}
    (he : ∀ rom, e ≠ .reset rom) : ∃ t, e.after (some s) = some t ∧ SameCore s t := by
  cases e with
  | reset rom => exact absurd rfl (he rom)
  | step rnd =>
    refine ⟨s, ?_, SameCore.refl s⟩
    simp only [Event.after, Event.apply, Event.onState, stepWith_of_held hheld]
  | tick => exact ⟨_, rfl, SameCore.refl s⟩
  | keys k => exact ⟨_, rfl, SameCore.refl s⟩
  | redrawAck => exact ⟨_, rfl, SameCore.refl s⟩

theorem runEvents_of_held {s : State} (hheld : s.heldUnknown = true) {es : List Event}
    (hes : ∀ e ∈ es, ∀ rom, e ≠ .reset rom) : ∃ t, runEvents (some s) es = some t ∧ SameCore s t := by
  induction es generalizing s with
  | nil => exact ⟨s, rfl, SameCore.refl s⟩
  | cons e es ih =>
    obtain ⟨he, hes⟩ := List.forall_mem_cons.1 hes
    obtain ⟨t, ht, hst⟩ := after_of_held hheld he
    obtain ⟨u, hu, htu⟩ := ih (hst.heldUnknown hheld) hes
    exact ⟨u, (congrArg (runEvents · es) ht).trans hu, hst.trans htu⟩

/-- Settles O9: the core is held at each of the states between, so each STEP among the events changes
nothing. -/
theorem unrecognizedWordHoldsUntilReset : Obligations.UnrecognizedWordHoldsUntilReset := by
  intro s es hheld hes
  obtain ⟨t, ht, hst⟩ := runEvents_of_held hheld hes
  have hheld' := hst.heldUnknown hheld
  obtain ⟨hpc, hmem, hv, hI, hstack⟩ := hst
  obtain ⟨op, hfetch, hdecode⟩ := (heldUnknown_iff t).1 hheld'
  obtain ⟨hstep, -, hdiag⟩ := step_of_unrecognized hfetch hdecode
  exact ⟨t, ht, hheld', hpc, hmem, hv, hI, hstack, hstep, hdiag⟩

/-! ### The invariant of R37 over events -/

/-- An event that answers a state answers one that satisfies the invariant, if the one before did. -/
theorem apply_inv {e : Event} {b : Option State} {t : State} (hinv : ∀ s ∈ b, s.Inv)
    (h : e.apply b = .next t) : t.Inv := by
  cases b with
  | none =>
    cases e with
    | reset rom => exact resetWith_inv h
    | _ => cases h
  | some s =>
    have hs : s.Inv := hinv s rfl
    cases e with
    | reset rom => exact resetWith_inv h
    | step rnd => exact stepWith_inv hs h
    | tick => cases h; exact hs
    | keys k => cases h; exact hs
    | redrawAck => cases h; exact hs

theorem after_inv {b : Option State} (hinv : ∀ s ∈ b, s.Inv) (e : Event) : ∀ t ∈ e.after b, t.Inv := by
  intro t ht
  unfold Event.after at ht
  split at ht
  next happly =>
    cases ht
    exact apply_inv hinv happly
  next => exact hinv t ht
  next => cases ht
  next => exact hinv t ht

theorem runEvents_inv {b : Option State} (hinv : ∀ s ∈ b, s.Inv) (es : List Event) :
    ∀ t ∈ runEvents b es, t.Inv := by
  induction es generalizing b with
  | nil => exact hinv
  | cons e es ih => exact ih (after_inv hinv e)

/-- Settles O56: a block with no state satisfies the invariant for want of one, and every event keeps it. -/
theorem everyReachableStateSatisfiesTheInvariant :
    Obligations.EveryReachableStateSatisfiesTheInvariant := fun es t =>
  runEvents_inv (b := none) (fun s hs => by cases hs) es t

/-! ### Loading a word (log entry 5) -/

theorem tableBytes_eq (w : Nat) :
    tableBytes 16 w = [firstByte (BitVec.ofNat 16 w), secondByte (BitVec.ofNat 16 w)] := by
  have hop : BitVec.ofNat 16 (w % 2 ^ 16) = BitVec.ofNat 16 w :=
    BitVec.eq_of_toNat_eq (by simp)
  rw [tableBytes, hop]

theorem decodeTableWord_eq (w : Nat) : decodeTableWord 16 w = decodeWord (BitVec.ofNat 16 w) := by
  rw [decodeTableWord, tableBytes_eq, decode, wordOfBytes_bytes]
  cases decodeWord (BitVec.ofNat 16 w) <;> rfl

/-- The word is placed where it can be fetched. -/
theorem withFetchWord_pc_le (s : State) (n w : Nat) : (s.withFetchWord n w).pc.toNat ≤ 0xFFE := by
  simp only [State.withFetchWord]
  split
  · assumption
  · decide

theorem withFetchWord_mem (s : State) (w : Nat) :
    (s.withFetchWord 16 w).mem = s.mem.writeBytes (s.withFetchWord 16 w).pc.toNat
      [firstByte (BitVec.ofNat 16 w), secondByte (BitVec.ofNat 16 w)] := by
  rw [← tableBytes_eq]; rfl

theorem withFetchWord_fetch (s : State) (w : Nat) :
    (s.withFetchWord 16 w).fetch? = some (BitVec.ofNat 16 w) := by
  have hpc := withFetchWord_pc_le s 16 w
  have hread : ∀ k (hk : k < 2), (s.withFetchWord 16 w).mem.read ((s.withFetchWord 16 w).pc.toNat + k) =
      [firstByte (BitVec.ofNat 16 w), secondByte (BitVec.ofNat 16 w)][k] := by
    intro k hk
    rw [withFetchWord_mem]
    exact Memory.read_writeBytes_inside _ _ [firstByte _, secondByte _] k hk (by simp only [InMemory]; omega)
  have hfirst := hread 0 (by decide)
  have hsecond := hread 1 (by decide)
  rw [Nat.add_zero] at hfirst
  rw [fetch?_of_le _ hpc, hfirst, hsecond]
  exact congrArg some (wordOfBytes_bytes _)

/-- Settles O7: the placed word is the one fetched, and it decodes as the table's word does. -/
theorem placedWordIsTheNextInstruction : Obligations.PlacedWordIsTheNextInstruction := by
  intro s w i _ hdecode
  rw [decodeTableWord_eq] at hdecode
  refine ⟨(step_of_decoded (withFetchWord_fetch s w) hdecode).1, fun hpc => if_pos hpc,
    fun hpc => if_neg (by omega), fun a ha ha' => ?_⟩
  rw [withFetchWord_mem]
  refine Memory.read_writeBytes_outside _ _ _ _ ?_
  simp only [List.length_cons, List.length_nil]
  omega

end Sys2Proof.Machine

/-! SUPPORT. Logic, reverse subtraction, shifts and index arithmetic (R123 to R130, R141, R142), the return from
a call (R100, R103) and the key skips (R160, R161); and the statements on them. -/

namespace Sys2Proof.Machine

/-! ### OR, AND and XOR (R123 to R125) -/

/-- Settles O20: each of the three is one register write of a bitwise operation. -/
theorem logicWritesNoFlag : Obligations.LogicWritesNoFlag := by
  refine fun s x y => ⟨?or, ?and, ?xor⟩
  case or =>
    refine ⟨_, exec_or s x y, rfl, onlyRegs_setReg_advance s x _, fun k _ => ?_⟩
    rw [reg_setReg_advance, BitVec.getLsbD_or]
  case and =>
    refine ⟨_, exec_and s x y, rfl, onlyRegs_setReg_advance s x _, fun k _ => ?_⟩
    rw [reg_setReg_advance, BitVec.getLsbD_and]
  case xor =>
    refine ⟨_, exec_xor s x y, rfl, onlyRegs_setReg_advance s x _, fun k _ => ?_⟩
    rw [reg_setReg_advance, BitVec.getLsbD_xor]

/-! ### SUBN, SHR and SHL (R128 to R130) -/

/-- Settles O23: SUBN is SUB with its operands exchanged and the same destination. -/
theorem reverseSubtractSetsNotBorrow : Obligations.ReverseSubtractSetsNotBorrow := by
  intro s x y
  refine ⟨_, exec_subn s x y, ?notBorrow, fun hx => ?difference, rfl,
    onlyRegs_writeResultThenFlag_advance s x _ _, rfl⟩
  case notBorrow => rw [vf_writeResultThenFlag_advance, toNat_flagByte_noBorrow]
  case difference => rw [dest_writeResultThenFlag_advance s hx, byte_toNat_sub]

/-- A flag that holds a bit, as a number. -/
theorem toNat_flagByte_getLsbD (a : Byte) (k : Nat) :
    (flagByte (a.getLsbD k)).toNat = a.toNat / 2 ^ k % 2 := by
  rw [flagByte_toNat, BitVec.getLsbD, Nat.testBit_eq_decide_div_mod_eq]
  have := Nat.mod_two_eq_zero_or_one (a.toNat / 2 ^ k)
  simp only [decide_eq_true_eq]
  split <;> omega

theorem toNat_flagByte_shiftedOutRight (a : Byte) : (flagByte (shiftedOutRight a)).toNat = a.toNat % 2 := by
  rw [shiftedOutRight, toNat_flagByte_getLsbD, Nat.pow_zero, Nat.div_one]

theorem toNat_flagByte_shiftedOutLeft (a : Byte) : (flagByte (shiftedOutLeft a)).toNat = a.toNat / 128 := by
  rw [shiftedOutLeft, toNat_flagByte_getLsbD]
  omega

/-- Settles O24: the equations of SHR and SHL do not mention `Y`. -/
theorem shiftsSetTheBitShiftedOut : Obligations.ShiftsSetTheBitShiftedOut := by
  refine fun s x y z => ⟨?shr, ?shl⟩
  case shr =>
    refine ⟨_, exec_shr s x y, ?_, fun hx => ?_, rfl, onlyRegs_writeResultThenFlag_advance s x _ _,
      exec_shr s x z⟩
    · rw [vf_writeResultThenFlag_advance, toNat_flagByte_shiftedOutRight]
    · rw [dest_writeResultThenFlag_advance s hx, BitVec.toNat_ushiftRight, Nat.shiftRight_one]
  case shl =>
    refine ⟨_, exec_shl s x y, ?_, fun hx => ?_, rfl, onlyRegs_writeResultThenFlag_advance s x _ _,
      exec_shl s x z⟩
    · rw [vf_writeResultThenFlag_advance, toNat_flagByte_shiftedOutLeft]
    · rw [dest_writeResultThenFlag_advance s hx, BitVec.toNat_shiftLeft, Nat.shiftLeft_eq]
      omega

/-! ### ADDA and FNT (R141, R142) -/

/-- Settles O29: both write the index register alone, and advance. -/
theorem indexArithmetic : Obligations.IndexArithmetic := by
  refine fun s x => ⟨?adda, ?fnt⟩
  case adda =>
    obtain ⟨hregs, hmem, hstack, htimers, hscreen, -, hkey, hdraws⟩ :=
      onlyPc_advance (s.addIndex (s.reg x).toNat)
    exact ⟨_, exec_adda s x, BitVec.toNat_ofNat _ 16, rfl, hregs, hmem, hstack, htimers, hscreen, hkey,
      hdraws⟩
  case fnt =>
    obtain ⟨hregs, hmem, hstack, htimers, hscreen, -, hkey, hdraws⟩ :=
      onlyPc_advance { s with I := fontAddr (s.reg x) }
    exact ⟨_, exec_fnt s x, toNat_fontAddr (s.reg x), rfl, hregs, hmem, hstack, htimers, hscreen, hkey,
      hdraws⟩

/-! ### RET (R100) -/

theorem diagOf_ret_of_empty {s : State} (hempty : s.sp.val = 0) : diagOf .ret s = [.stackUnderflow] :=
  raiseIf_of_true ((stackEmpty_iff s).2 hempty) _

theorem diagOf_ret_of_used {s : State} (hused : 0 < s.sp.val) : diagOf .ret s = [] :=
  if_neg (mt (stackEmpty_iff s).1 hused.ne')

/-- Settles O11: `RET` is an advance on an empty stack, and else a pop and a jump past the popped entry. -/
theorem returnGoesPastTheCall : Obligations.ReturnGoesPastTheCall := by
  intro s
  rcases Nat.eq_zero_or_pos s.sp.val with hempty | hused
  · obtain ⟨hregs, hmem, ⟨hstack, hsp⟩, htimers, hscreen, hindex⟩ := onlyPc_advance s
    exact ⟨_, exec_ret_of_empty hempty, hregs, hmem, htimers, hscreen, hindex, hstack,
      fun _ => ⟨hsp, rfl, diagOf_ret_of_empty hempty⟩, fun hused => absurd hempty hused.ne'⟩
  · refine ⟨_, exec_ret_of_used hused, fun _ _ => rfl, fun _ => rfl, ⟨rfl, rfl⟩, ⟨rfl, rfl⟩,
      ⟨rfl, rfl, rfl⟩, rfl, fun hempty => absurd hempty hused.ne',
      fun _ => ⟨diagOf_ret_of_used hused, Nat.sub_add_cancel hused, fun k hk => ?_⟩⟩
    rw [jump_pc, topEntry_eq s k hk]

/-- Settles O13: the entry the `CALL` filled is the one below the stack pointer it left, and the return
finds it there. -/
theorem callThenReturnContinuesAfterTheCall : Obligations.CallThenReturnContinuesAfterTheCall := by
  rintro s t u nnn hroom hcall ⟨hstack, hsp⟩
  cases (exec_call_of_room hroom nnn).symm.trans hcall
  obtain ⟨hcount, hentries⟩ := push_spec s s.pc hroom
  have husp : u.sp.val = s.sp.val + 1 := (congrArg Fin.val hsp).trans hcount
  have hentry : ∀ k : Fin 16, u.stack[k] = if k.val = s.sp.val then s.pc else s.stack[k] :=
    fun k => hstack ▸ hentries k
  refine ⟨_, exec_ret_of_used (by omega), ?pc, Fin.ext ?sp, fun k hk => ?entries⟩
  case pc => rw [jump_pc, topEntry_eq u ⟨s.sp.val, hroom⟩ husp.symm, hentry, if_pos rfl]
  case sp => rw [jump_sp, pop_sp_val, husp, Nat.add_sub_cancel]
  case entries => exact (hentry k).trans (if_neg hk.ne)

/-! ### SKP and SKNP (R160, R161) -/

theorem keyIndexOut_of_key {s : State} {x : Nibble} {p : Bool}
    (hkey : s.keyPressed? (s.reg x).toNat = some p) : s.keyIndexOut x = false := by
  rw [State.keyIndexOut, hkey]; rfl

theorem keyIndexOut_of_no_key {s : State} {x : Nibble} (hkey : s.keyPressed? (s.reg x).toNat = none) :
    s.keyIndexOut x = true := by
  rw [State.keyIndexOut, hkey]; rfl

/-- Settles O40: a number below 16 names a key, and both are conditional skips; a greater one names none, and
both are advances. -/
theorem keySkipsTestTheNumberedKey : Obligations.KeySkipsTestTheNumberedKey := by
  intro s x
  by_cases hlt : (s.reg x).toNat < 16
  · have hkey := keyPressed?_of_lt s ⟨_, hlt⟩
    have hin := keyIndexOut_of_key hkey
    have hnumber : ∀ k : Fin 16, (s.reg x).toNat = k.val → s.key[k] = s.key[(⟨_, hlt⟩ : Fin 16)] :=
      fun k hk => congrArg (s.key[·]) (Fin.ext hk.symm)
    refine ⟨⟨_, exec_skp_of_key hkey, onlyPc_skipIf s _, fun k hk => ⟨raiseIf_of_false hin _, ?_⟩,
        fun hge => absurd hlt hge.not_gt⟩,
      ⟨_, exec_sknp_of_key hkey, onlyPc_skipIf s _, fun k hk => ⟨raiseIf_of_false hin _, ?_⟩,
        fun hge => absurd hlt hge.not_gt⟩⟩
    · rw [hnumber k hk, skipIf_pc]
    · rw [hnumber k hk, skipIf_pc]
      cases s.key[(⟨_, hlt⟩ : Fin 16)] <;> rfl
  · have hkey := keyPressed?_of_ge s _ (Nat.le_of_not_lt hlt)
    have hout := keyIndexOut_of_no_key hkey
    exact ⟨⟨_, exec_skp_of_no_key hkey, onlyPc_advance s, fun k hk => absurd (hk ▸ k.isLt) hlt,
        fun _ => ⟨rfl, raiseIf_of_true hout _⟩⟩,
      ⟨_, exec_sknp_of_no_key hkey, onlyPc_advance s, fun k hk => absurd (hk ▸ k.isLt) hlt,
        fun _ => ⟨rfl, raiseIf_of_true hout _⟩⟩⟩

end Sys2Proof.Machine

/-! SUPPORT. The memory transfers (R143 to R145): what each stores or loads byte by byte, the code of a transfer
that leaves memory, and that a memory in canonical form is the list of what it reads as; and the statements on
BCD, STM, LDM, on the fetch after a store and on canonical memories. -/

namespace Sys2Proof.Machine

/-! ### The code of a transfer -/

/-- A transfer leaves memory exactly when its last byte does: addresses rise. -/
theorem transferOutOfBounds_succ_iff (s : State) (n : Nat) :
    s.transferOutOfBounds (n + 1) = true ↔ ¬ s.ea n ≤ 0xFFF := by
  rw [transferOutOfBounds_iff]
  constructor
  · rintro ⟨k, hk, hout⟩
    simp only [State.ea] at hout ⊢
    omega
  · exact fun hout => ⟨n, n.lt_succ_self, by omega⟩

theorem raiseIf_transferOutOfBounds_succ (s : State) (n : Nat) (d : Diag) :
    raiseIf (s.transferOutOfBounds (n + 1)) d = if s.ea n ≤ 0xFFF then [] else [d] := by
  rw [raiseIf, if_congr (transferOutOfBounds_succ_iff s n) rfl rfl, ite_not]

/-! ### BCD (R143) -/

/-- Digit `k` is stored at `ea k`. -/
theorem toNat_read_storeBytes_bcdDigits (s : State) (b : Byte) {k : Nat} (hk : k < 3)
    (hmem : s.ea k ≤ 0xFFF) :
    ((s.storeBytes (bcdDigits b)).mem.read (s.ea k)).toNat =
      [b.toNat / 100, b.toNat / 10 % 10, b.toNat % 10][k] := by
  rw [storeBytes_inside s (bcdDigits b) k hk hmem]
  exact (List.getElem_map BitVec.toNat).symm.trans (List.getElem_of_eq (toNat_bcdDigits b) hk)

/-- Settles O30: `BCD` is one transfer of three digits and an advance. -/
theorem bcdStoresTheDecimalDigits : Obligations.BcdStoresTheDecimalDigits := by
  intro s x
  exact ⟨_, exec_bcd s x, toNat_read_storeBytes_bcdDigits s _ (k := 0) (by decide),
    toNat_read_storeBytes_bcdDigits s _ (k := 1) (by decide),
    toNat_read_storeBytes_bcdDigits s _ (k := 2) (by decide), storeBytes_outside s (bcdDigits (s.reg x)),
    storeBytes_notInMemory s (bcdDigits (s.reg x)), rfl, fun _ _ => rfl, ⟨rfl, rfl⟩, ⟨rfl, rfl⟩,
    ⟨rfl, rfl⟩, ⟨rfl, rfl, rfl⟩, raiseIf_transferOutOfBounds_succ s 2 _⟩

/-! ### STM and LDM (R144, R145) -/

/-- Register `k` is stored at `ea k`. -/
theorem read_storeBytes_lowRegs {s : State} {x k : Nibble} (hk : k.toNat ≤ x.toNat)
    (hmem : s.ea k.toNat ≤ 0xFFF) : (s.storeBytes (s.lowRegs x)).mem.read (s.ea k.toNat) = s.reg k := by
  have hlen : k.toNat < (s.lowRegs x).length := by rw [length_lowRegs]; omega
  rw [storeBytes_inside s _ _ hlen hmem, getElem_lowRegs]
  rfl

/-- Every register after a load from memory in range. -/
theorem reg_loadLow (s : State) (x k : Nibble) :
    (s.loadLow x).reg k =
      if k.toNat ≤ x.toNat ∧ s.ea k.toNat ≤ 0xFFF then s.mem.read (s.ea k.toNat) else s.reg k := by
  refine (loadRegs_getElem s.mem s.I.toNat (regCount x) s.v k.toNat k.isLt).trans ?_
  exact if_congr (and_congr_left' Nat.lt_succ_iff) rfl rfl

/-- The index register after a transfer of `v[0]` to `v[X]`. -/
theorem toNat_I_addIndex_regCount (s : State) (x : Nibble) :
    (s.addIndex (regCount x)).I.toNat = (s.I.toNat + x.toNat + 1) % 65536 :=
  BitVec.toNat_ofNat _ 16

/-- Settles O31: `STM` is one transfer, the step of `I` and an advance. -/
theorem storeMultipleStoresTheRegisters : Obligations.StoreMultipleStoresTheRegisters := by
  intro s x
  have hlen : (s.lowRegs x).length = x.toNat + 1 := length_lowRegs s x
  exact ⟨_, exec_stm s x, fun k => read_storeBytes_lowRegs,
    fun a ha => storeBytes_outside s (s.lowRegs x) a (hlen ▸ ha),
    storeBytes_notInMemory s (s.lowRegs x), toNat_I_addIndex_regCount s x, rfl, fun _ _ => rfl, ⟨rfl, rfl⟩,
    ⟨rfl, rfl⟩, ⟨rfl, rfl⟩, rfl, rfl, raiseIf_transferOutOfBounds_succ s x.toNat _⟩

/-- Settles O32: `LDM` writes the register file and `I`, and advances. -/
theorem loadMultipleLoadsTheRegisters : Obligations.LoadMultipleLoadsTheRegisters := fun s x =>
  ⟨_, exec_ldm s x, reg_loadLow s x, toNat_I_addIndex_regCount s x, rfl, fun _ => rfl, ⟨rfl, rfl⟩,
    ⟨rfl, rfl⟩, ⟨rfl, rfl⟩, rfl, rfl, raiseIf_transferOutOfBounds_succ s x.toNat _⟩

/-- Settles O33: an address in range holds the register `STM` stored there, and a register whose address is
out of range is loaded by nothing. -/
theorem storeLoadRoundTrip : Obligations.StoreLoadRoundTrip := by
  intro s t u w x hstm hmem hI hkept hldm k hk
  cases (exec_stm s x).symm.trans hstm
  cases (exec_ldm u x).symm.trans hldm
  have hea : u.ea k.toNat = s.ea k.toNat := by rw [State.ea, hI]; rfl
  refine (reg_loadLow u x k).trans ?_
  rw [hea, hmem]
  by_cases hin : s.ea k.toNat ≤ 0xFFF
  · exact (if_pos ⟨hk, hin⟩).trans (read_storeBytes_lowRegs hk hin)
  · exact (if_neg fun h => hin h.2).trans (hkept k hk (by omega))

/-- Settles O34: the two bytes at the next `pc` are those of two registers in a row. -/
theorem storedBytesAreFetchedNext : Obligations.StoredBytesAreFetchedNext := by
  intro s t x k hstm hk hpc hmem
  cases (exec_stm s x).symm.trans hstm
  have hnext : (k + 1).toNat = k.toNat + 1 := by bv_omega
  have hea : s.ea (k + 1).toNat = s.ea k.toNat + 1 := by rw [hnext]; rfl
  have hfirst := read_storeBytes_lowRegs (s := s) (x := x) (k := k) (by omega) (by omega)
  have hsecond := read_storeBytes_lowRegs (s := s) (x := x) (k := k + 1) (by omega) (by omega)
  rw [hea] at hsecond
  rw [hpc] at hfirst hsecond hmem
  rw [← hfirst, ← hsecond]
  exact fetch?_of_le _ hmem

/-! ### Canonical memories -/

/-- A listed byte is what its address reads as: its address is listed once. -/
theorem Memory.read_of_mem {m : Memory} (h : m.Pairwise fun p q => p.1 < q.1) {a : Nat} {b : Byte}
    (hmem : (a, b) ∈ m) : m.read a = b := by
  induction m with
  | nil => cases hmem
  | cons p rest ih =>
    obtain ⟨k, c⟩ := p
    obtain ⟨hlt, hrest⟩ := List.pairwise_cons.1 h
    rcases List.mem_cons.1 hmem with heq | hmem
    · cases heq
      exact if_pos rfl
    · exact (if_neg (hlt _ hmem).ne).trans (ih hrest hmem)

/-- An unlisted address reads as RESET left it. -/
theorem Memory.read_of_not_mem {m : Memory} {a : Nat} (h : ∀ b, (a, b) ∉ m) : m.read a = resetByte a := by
  induction m with
  | nil => rfl
  | cons p rest ih =>
    obtain ⟨k, c⟩ := p
    have hk : k ≠ a := by
      rintro rfl
      exact h c List.mem_cons_self
    exact (if_neg hk).trans (ih fun b hb => h b (List.mem_cons_of_mem _ hb))

/-- A memory in canonical form lists exactly the bytes that differ from what RESET left. -/
theorem Memory.mem_iff {m : Memory} (h : m.wf) (a : Nat) (b : Byte) :
    (a, b) ∈ m ↔ m.read a = b ∧ b ≠ resetByte a := by
  constructor
  · exact fun hmem => ⟨Memory.read_of_mem h.1 hmem, (h.2 _ hmem).2⟩
  · rintro ⟨rfl, hne⟩
    by_contra hnot
    refine hne (Memory.read_of_not_mem fun b hb => hnot ?_)
    rwa [Memory.read_of_mem h.1 hb]

/-- Settles O35: memories that read the same list the same bytes, and a strictly rising list is determined by
its members. -/
theorem canonicalMemoryIsDeterminedByItsReads : Obligations.CanonicalMemoryIsDeterminedByItsReads := by
  intro m m' h h' hread
  have : Std.Antisymm fun p q : Host.Cell => p.1 < q.1 := ⟨fun _ _ hpq hqp => absurd hpq hqp.not_gt⟩
  have : Std.Irrefl fun p q : Host.Cell => p.1 < q.1 := ⟨fun _ => Nat.lt_irrefl _⟩
  refine List.Pairwise.eq_of_mem_iff h.1 h'.1 fun ⟨a, b⟩ => ?_
  rw [Memory.mem_iff h, Memory.mem_iff h', hread]

end Sys2Proof.Machine

/-! SUPPORT. Drawing a sprite (R151 to R155): which pixels a `DRW` toggles and when it collides, in terms of the
pixels under the sprite; and the statements on one `DRW` and on two in a row. -/

namespace Sys2Proof.Machine

/-! ### The pixels under a sprite -/

/-- The pixels under a sprite are those the renderer plots. -/
theorem underSprite_iff (s : State) (x0 y0 : Byte) (n : Nat) (py : Fin 32) (px : Fin 64) :
    UnderSprite s x0 y0 n py px ↔ (py, px) ∈ spritePixels s.mem s.I.toNat x0 y0 n := by
  rw [mem_spritePixels]
  refine exists_congr fun r => exists_congr fun c => ?_
  rw [Prod.mk.injEq, Fin.ext_iff, Fin.ext_iff]
  exact Iff.rfl

/-- Which pixels are under a sprite depends on memory and `I` alone. -/
theorem underSprite_congr {s t : State} (hmem : t.mem = s.mem) (hI : t.I = s.I) (x0 y0 : Byte) (n : Nat)
    (py : Fin 32) (px : Fin 64) : UnderSprite t x0 y0 n py px ↔ UnderSprite s x0 y0 n py px := by
  rw [underSprite_iff, underSprite_iff, hmem, hI]

section
variable (s : State) (x y n : Nibble)

/-- The pixels under the sprite that `DRW Vx, Vy, n` draws from `s`. -/
abbrev Under (py : Fin 32) (px : Fin 64) : Prop := UnderSprite s (s.reg x) (s.reg y) n.toNat py px

/-- A sprite of at most 15 rows visits no pixel twice (R153). -/
theorem spritePixels_drawn_nodup :
    (spritePixels s.mem s.I.toNat (s.reg x) (s.reg y) n.toNat).Nodup :=
  spritePixels_nodup _ _ _ _ _ (by omega)

theorem pixel_drawn_of_under {py : Fin 32} {px : Fin 64} (h : Under s x y n py px) :
    Framebuffer.pixel (s.drawn x y n).1 py px = ! pixelPort s py px := by
  rw [State.drawn, drawSprite_eq, pixel_plotAll _ _ (spritePixels_drawn_nodup s x y n)]
  exact if_pos ((underSprite_iff _ _ _ _ _ _).1 h)

theorem pixel_drawn_of_not_under {py : Fin 32} {px : Fin 64} (h : ¬ Under s x y n py px) :
    Framebuffer.pixel (s.drawn x y n).1 py px = pixelPort s py px := by
  rw [State.drawn, drawSprite_eq, pixel_plotAll _ _ (spritePixels_drawn_nodup s x y n)]
  exact if_neg (mt (underSprite_iff _ _ _ _ _ _).2 h)

/-- A draw collides when some pixel under the sprite was on. -/
theorem collision_drawn_iff :
    (s.drawn x y n).2 = true ↔ ∃ py px, Under s x y n py px ∧ pixelPort s py px = true := by
  rw [State.drawn, drawSprite_eq, collision_plotAll _ _ (spritePixels_drawn_nodup s x y n)]
  constructor
  · rintro (hfalse | ⟨⟨py, px⟩, hmem, hon⟩)
    · cases hfalse
    · exact ⟨py, px, (underSprite_iff _ _ _ _ _ _).2 hmem, hon⟩
  · rintro ⟨py, px, hunder, hon⟩
    exact .inr ⟨(py, px), (underSprite_iff _ _ _ _ _ _).1 hunder, hon⟩

/-- The state a `DRW` answers. -/
abbrev State.afterDrw : State :=
  ({ s with fb := (s.drawn x y n).1, redraw := true }.setReg vf (flagByte (s.drawn x y n).2)).advance

theorem vf_afterDrw : (s.afterDrw x y n).reg vf = flagByte (s.drawn x y n).2 :=
  reg_setReg_advance _ vf _

theorem reg_afterDrw {r : Nibble} (hr : r ≠ vf) : (s.afterDrw x y n).reg r = s.reg r :=
  State.reg_setReg_other _ _ hr

theorem vf_afterDrw_eq_one_iff :
    (s.afterDrw x y n).reg vf = 1 ↔ ∃ py px, Under s x y n py px ∧ pixelPort s py px = true := by
  rw [vf_afterDrw, flagByte_eq_one, collision_drawn_iff]

end

/-! ### One `DRW` -/

theorem transferOutOfBounds_eq_false {s : State} {n : Nat} (h : ∀ k, k < n → s.ea k ≤ 0xFFF) :
    s.transferOutOfBounds n = false := by
  refine Bool.eq_false_iff.2 fun hout => ?_
  obtain ⟨k, hk, hgt⟩ := (transferOutOfBounds_iff s n).1 hout
  exact absurd (h k hk) hgt.not_ge

/-- Settles O37: the renderer plots the pixels under the sprite, each once. -/
theorem drawTogglesThePixelsUnderTheSprite : Obligations.DrawTogglesThePixelsUnderTheSprite := by
  intro s x y n
  refine ⟨_, exec_drw s x y n,
    fun py px => ⟨pixel_drawn_of_under s x y n, pixel_drawn_of_not_under s x y n⟩,
    (vf_afterDrw_eq_one_iff s x y n).2, fun hnone => ?clear, rfl, rfl,
    fun r hr => reg_afterDrw s x y n (List.ne_of_not_mem_cons hr), fun _ => rfl, ⟨rfl, rfl⟩, ⟨rfl, rfl⟩,
    ⟨rfl, rfl, rfl⟩, fun hin => ?inside, fun hout => ?outside⟩
  case clear =>
    have hcollision : (s.drawn x y n).2 = false :=
      Bool.eq_false_iff.2 (mt (collision_drawn_iff s x y n).1 hnone)
    exact (vf_afterDrw s x y n).trans (congrArg flagByte hcollision)
  case inside => rw [diagOf_drw, raiseIf_of_false (transferOutOfBounds_eq_false hin)]
  case outside => rw [diagOf_drw, raiseIf_of_true ((transferOutOfBounds_iff s n.toNat).2 hout)]

/-! ### The same `DRW` twice -/

section
variable (s : State) {x y : Nibble} (n : Nibble) (hx : x ≠ vf) (hy : y ≠ vf)
include hx hy

/-- With neither coordinate in `VF`, the second draw is under the same pixels. -/
theorem under_afterDrw_iff (py : Fin 32) (px : Fin 64) :
    Under (s.afterDrw x y n) x y n py px ↔ Under s x y n py px := by
  rw [Under, reg_afterDrw s x y n hx, reg_afterDrw s x y n hy]
  exact underSprite_congr rfl rfl _ _ _ _ _

/-- The second draw toggles back what the first toggled. -/
theorem pixel_drawn_afterDrw (py : Fin 32) (px : Fin 64) :
    Framebuffer.pixel ((s.afterDrw x y n).drawn x y n).1 py px = pixelPort s py px := by
  have hsame := under_afterDrw_iff s n hx hy py px
  by_cases hunder : Under s x y n py px
  · calc _ = ! pixelPort (s.afterDrw x y n) py px := pixel_drawn_of_under _ x y n (hsame.2 hunder)
      _ = ! ! pixelPort s py px := congrArg (! ·) (pixel_drawn_of_under s x y n hunder)
      _ = pixelPort s py px := Bool.not_not _
  · calc _ = pixelPort (s.afterDrw x y n) py px := pixel_drawn_of_not_under _ x y n (mt hsame.1 hunder)
      _ = pixelPort s py px := pixel_drawn_of_not_under s x y n hunder

/-- The second draw collides where the first turned a pixel on. -/
theorem vf_afterDrw_afterDrw_eq_one_iff :
    ((s.afterDrw x y n).afterDrw x y n).reg vf = 1 ↔
      ∃ py px, Under s x y n py px ∧ pixelPort s py px = false := by
  rw [vf_afterDrw_eq_one_iff]
  refine exists_congr fun py => exists_congr fun px => ?_
  rw [under_afterDrw_iff s n hx hy py px]
  refine and_congr_right fun hunder => ?_
  have htoggled : pixelPort (s.afterDrw x y n) py px = ! pixelPort s py px :=
    pixel_drawn_of_under s x y n hunder
  rw [htoggled, Bool.not_eq_true']

end

/-- Settles O38. -/
theorem doubleDrawRestoresTheFramebuffer : Obligations.DoubleDrawRestoresTheFramebuffer := by
  intro s t u x y n hx hy hfirst hsecond
  cases (exec_drw s x y n).symm.trans hfirst
  cases (exec_drw _ x y n).symm.trans hsecond
  exact ⟨pixel_drawn_afterDrw s n hx hy, vf_afterDrw_afterDrw_eq_one_iff s n hx hy⟩

end Sys2Proof.Machine
